-- ==== Sys2Proof/Word.lean ====
section
/-! DEFINITION. The plain words of RABIN-CORE: the 32-bit bus and command word, the bus byte lanes,
the 16-bit immediate and the number of a big-integer register (spec 00_scope R5, 30_encoding R100–R103). -/

namespace Sys2Proof

/-- A 32-bit word: a bus word, a control register, a limb or a command word (R5, R100). -/
abbrev Word := BitVec 32

/-- A byte, as the reference encoding FWB produces it (R16). -/
abbrev Byte := BitVec 8

/-- The byte lanes of a 32-bit bus transfer at byte address 4k: lane j is byte address 4k + j (R73). -/
abbrev Lanes := Vector Byte 4

/-- The number of a big-integer register x[0]..x[15]; every 4-bit field names one (R31, R103). -/
abbrev Reg := Fin 16

/-- The immediate field IMM16 of format I (R102). -/
abbrev Imm := BitVec 16

/-- The bit of a word that a flag occupies: 1 for true. -/
def bit (b : Bool) : Nat := if b then 1 else 0

end Sys2Proof
end

