-- ==== Sys2Proof/Syntax.lean ====
section
/-! DEFINITION. The commands of RABIN-CORE: one constructor per row of the opcode map (spec 30_encoding
R104), with the operands in the order of the assembler syntax (R121). -/

namespace Sys2Proof

/-- A command. Register operands are named after the fields of R101 that hold them. -/
inductive Instr where
  /-- MOV Bd, Ba (R140). -/
  | mov (d a : Reg)
  /-- LDI Bd, imm (R141). -/
  | ldi (d : Reg) (imm : Imm)
  /-- MUL Bd, Ba, Bb (R142). -/
  | mul (d a b : Reg)
  /-- MODMUL Bd, Ba, Bb, Bc; c names the modulus (R160). -/
  | modmul (d a b c : Reg)
  /-- MODPOW Bd, Ba, Bb, Bc; base a, exponent b, modulus c (R162). -/
  | modpow (d a b c : Reg)
  /-- MODINV Bd, Ba, Bc; c names the modulus (R165). -/
  | modinv (d a c : Reg)
  /-- FITW Bd, Ba, width in bytes (R168). -/
  | fitw (d a : Reg) (width : Imm)
  /-- MRTEST Ba (R200). -/
  | mrtest (a : Reg)
  /-- PRIMEGEN Bd, bits (R230). -/
  | primegen (d : Reg) (bits : Imm)
  /-- CRT Bd, Ba, Bb, Bc, Be; xp = a, xq = b, p = c, q = e (R250). -/
  | crt (d a b c e : Reg)
  /-- SQRT4 Bd, Ba, Bc, Be; c = x[a], p = x[c], q = x[e], results in d..d+3 (R254). -/
  | sqrt4 (d a c e : Reg)
  /-- TRANSFORM Bd, Ba, Bc, Be; m = x[a], p = x[c], q = x[e] (R280). -/
  | transform (d a c e : Reg)
deriving DecidableEq, Repr

/-- The row of the opcode map a command belongs to (R104), without its operands. -/
inductive Mnemonic where
  | mov | ldi | mul | modmul | modpow | modinv | fitw | mrtest | primegen | crt | sqrt4 | transform
deriving DecidableEq, Repr

/-- The mnemonic of a command. -/
def Instr.mnemonic : Instr → Mnemonic
  | .mov .. => .mov
  | .ldi .. => .ldi
  | .mul .. => .mul
  | .modmul .. => .modmul
  | .modpow .. => .modpow
  | .modinv .. => .modinv
  | .fitw .. => .fitw
  | .mrtest .. => .mrtest
  | .primegen .. => .primegen
  | .crt .. => .crt
  | .sqrt4 .. => .sqrt4
  | .transform .. => .transform

end Sys2Proof
end

