-- ==== Sys2Proof/WellFormed.lean ====
section
/-! DEFINITION. Which commands the encoding can spell (spec 30_encoding R105, R106). Register numbers and
immediates are in range by their types; the one side condition of the opcode map is SQRT4's D ≤ 12. -/

namespace Sys2Proof

/-- SQRT4 writes x[d]..x[d+3], so its D field must be at most 12 (R104, R105, D20); every other command is
well-formed. -/
def Instr.wf : Instr → Bool
  | .mov _ _ => true
  | .ldi _ _ => true
  | .mul _ _ _ => true
  | .modmul _ _ _ _ => true
  | .modpow _ _ _ _ => true
  | .modinv _ _ _ => true
  | .fitw _ _ _ => true
  | .mrtest _ => true
  | .primegen _ _ => true
  | .crt _ _ _ _ _ => true
  | .sqrt4 d _ _ _ => decide (d.val ≤ 12)
  | .transform _ _ _ _ => true

end Sys2Proof
end

