-- ==== Sys2Proof/Decode.lean ====
section
/-! DEFINITION. The command decoder and, after it, the encoder (spec 30_encoding R100–R110). Decoding reads
OP = w[31:24] and then the fields of that opcode's format (R100); it is total on every 32-bit word and
rejects by name. The match/mask rows of R105 stand beside it as data. -/

namespace Sys2Proof

/-- Why a word spells no command: the three bullets of R110. All three complete with IllegalCommand. -/
inductive Reject where
  /-- OP is none of the twelve opcodes. -/
  | unassignedOpcode
  /-- A field the row marks "must be 0" is not 0. -/
  | reservedField
  /-- SQRT4 with D ≥ 13. -/
  | sqrt4Destination
deriving DecidableEq, Repr

/-- `v[lo+n-1:lo]` as a natural number (R6). -/
def field (w : Word) (lo n : Nat) : Nat := w.toNat / 2 ^ lo % 2 ^ n

/-- A 4-bit register field (R101, R103). -/
def regField (w : Word) (lo : Nat) : Reg := ⟨w.toNat / 2 ^ lo % 16, Nat.mod_lt _ (by decide)⟩

/-- OP = w[31:24] (R100). -/
def opField (w : Word) : Nat := field w 24 8

/-- Fields D, A, B, C, E of R101. -/
def dField (w : Word) : Reg := regField w 20
def aField (w : Word) : Reg := regField w 16
def bField (w : Word) : Reg := regField w 12
def cField (w : Word) : Reg := regField w 8
def eField (w : Word) : Reg := regField w 4

/-- IMM16 = w[15:0] (R102). -/
def immField (w : Word) : Imm := BitVec.ofNat 16 (field w 0 16)

/-- `i` when the row's "must be 0" fields hold 0, else the rejection (R104, R110). -/
def guarded (zero : Bool) (i : Instr) : Except Reject Instr :=
  if zero then .ok i else .error .reservedField

/-- Decode (R106), by opcode (R104). -/
def decode (w : Word) : Except Reject Instr :=
  match opField w with
  | 0x01 => guarded (field w 0 16 == 0) (.mov (dField w) (aField w))
  | 0x02 => guarded (field w 16 4 == 0) (.ldi (dField w) (immField w))
  | 0x03 => guarded (field w 0 12 == 0) (.mul (dField w) (aField w) (bField w))
  | 0x10 => guarded (field w 0 8 == 0) (.modmul (dField w) (aField w) (bField w) (cField w))
  | 0x11 => guarded (field w 0 8 == 0) (.modpow (dField w) (aField w) (bField w) (cField w))
  | 0x12 => guarded (field w 12 4 == 0 && field w 0 8 == 0) (.modinv (dField w) (aField w) (cField w))
  | 0x13 => .ok (.fitw (dField w) (aField w) (immField w))
  | 0x20 => guarded (field w 20 4 == 0 && field w 0 16 == 0) (.mrtest (aField w))
  | 0x30 => guarded (field w 16 4 == 0) (.primegen (dField w) (immField w))
  | 0x40 => guarded (field w 0 4 == 0) (.crt (dField w) (aField w) (bField w) (cField w) (eField w))
  | 0x41 =>
    if field w 12 4 == 0 && field w 0 4 == 0 then
      if (dField w).val ≤ 12 then .ok (.sqrt4 (dField w) (aField w) (cField w) (eField w))
      else .error .sqrt4Destination
    else .error .reservedField
  | 0x50 => guarded (field w 12 4 == 0 && field w 0 4 == 0)
      (.transform (dField w) (aField w) (cField w) (eField w))
  | _ => .error .unassignedOpcode

/-- The format R word with these fields and Z = 0 (R101). -/
def formatR (op d a b c e : Nat) : Word :=
  BitVec.ofNat 32 (op * 2 ^ 24 + d * 2 ^ 20 + a * 2 ^ 16 + b * 2 ^ 12 + c * 2 ^ 8 + e * 2 ^ 4)

/-- The format I word with these fields (R102). -/
def formatI (op d a imm : Nat) : Word :=
  BitVec.ofNat 32 (op * 2 ^ 24 + d * 2 ^ 20 + a * 2 ^ 16 + imm)

/-- OP of each row of the opcode map (R104). -/
def opcode : Mnemonic → Nat
  | .mov => 0x01
  | .ldi => 0x02
  | .mul => 0x03
  | .modmul => 0x10
  | .modpow => 0x11
  | .modinv => 0x12
  | .fitw => 0x13
  | .mrtest => 0x20
  | .primegen => 0x30
  | .crt => 0x40
  | .sqrt4 => 0x41
  | .transform => 0x50

/-- The word of a command (R101, R102, R104, R121); fields a row does not use are 0. -/
def encode : Instr → Word
  | .mov d a => formatR 0x01 d a 0 0 0
  | .ldi d imm => formatI 0x02 d 0 imm.toNat
  | .mul d a b => formatR 0x03 d a b 0 0
  | .modmul d a b c => formatR 0x10 d a b c 0
  | .modpow d a b c => formatR 0x11 d a b c 0
  | .modinv d a c => formatR 0x12 d a 0 c 0
  | .fitw d a width => formatI 0x13 d a width.toNat
  | .mrtest a => formatR 0x20 0 a 0 0 0
  | .primegen d bits => formatI 0x30 d 0 bits.toNat
  | .crt d a b c e => formatR 0x40 d a b c e
  | .sqrt4 d a c e => formatR 0x41 d a 0 c e
  | .transform d a c e => formatR 0x50 d a 0 c e

/-- The (match, mask) pair of each row, as R105 prints them. -/
def matchMask : Mnemonic → Word × Word
  | .mov => (0x01000000, 0xFF00FFFF)
  | .ldi => (0x02000000, 0xFF0F0000)
  | .mul => (0x03000000, 0xFF000FFF)
  | .modmul => (0x10000000, 0xFF0000FF)
  | .modpow => (0x11000000, 0xFF0000FF)
  | .modinv => (0x12000000, 0xFF00F0FF)
  | .fitw => (0x13000000, 0xFF000000)
  | .mrtest => (0x20000000, 0xFFF0FFFF)
  | .primegen => (0x30000000, 0xFF0F0000)
  | .crt => (0x40000000, 0xFF00000F)
  | .sqrt4 => (0x41000000, 0xFF00F00F)
  | .transform => (0x50000000, 0xFF00F00F)

/-- `w` fits the row of `m`: (w and mask) = match (R105). -/
abbrev fitsRow (m : Mnemonic) (w : Word) : Prop := w &&& (matchMask m).2 = (matchMask m).1

/-- What the decoder reads from a table row's word of `nbits` bits: a command is one 32-bit word (R100), so
missing upper bits are 0 and a longer word is no command. -/
def decodeTableWord (nbits w : Nat) : Option Instr :=
  if nbits ≤ 32 then (decode (BitVec.ofNat 32 (w % 2 ^ nbits))).toOption else none

end Sys2Proof
end

