-- ==== Sys2Proof/Config.lean ====
section
/-! DEFINITION. The parameters an implementation of RABIN-CORE fixes (spec 00_scope R5, 93 I1, I2). They
never change along a run; State carries them, so every statement about all states is a statement about
every OPW and every BASE. The parameter RNG has no constant here: what it yields arrives as data
(State.rng, log entry 2). -/

namespace Sys2Proof

/-- The parameters OPW and BASE of R5. -/
structure Config where
  /-- OPW: the width of every big-integer register, in bits (R5, D3). -/
  opw : Nat
  /-- BASE: the byte address of the register window (R5, R70, D11). -/
  base : Nat
deriving DecidableEq, Repr

/-- The constraints R5 puts on the parameters: OPW is a multiple of 32 in 64..8192 and BASE is 32 KiB
aligned. -/
abbrev Config.wf (c : Config) : Prop :=
  c.opw % 32 = 0 ∧ 64 ≤ c.opw ∧ c.opw ≤ 8192 ∧ c.base % 0x8000 = 0

/-- LIMBS = OPW / 32, the 32-bit limbs of a register (R5). -/
def Config.limbs (c : Config) : Nat := c.opw / 32

/-- The configuration State.reset is given: the spec's reference OPW = 2048 (R5, D3).
DESIGN CHOICE (log entry 1): BASE = 0, which the spec leaves to the platform. -/
def Config.reference : Config := { opw := 2048, base := 0 }

end Sys2Proof
end

