-- ==== Sys2Proof/Machine/State.lean ====
section
/-! DEFINITION. The state of RABIN-CORE as plain data (spec 10_state), the two ways a step can stop, and
the state right after reset (70_reset R350). -/

namespace Sys2Proof.Machine

open Sys2Proof

/-- The errors a command can complete with (R301). ERRCODE holds `none` for code 0, None. -/
inductive CmdError where
  | invalidArgument
  | invalidModulus
  | noInverseExists
  | overflow
  | generationTimeout
  | illegalCommand
deriving DecidableEq, Repr

/-- What is read once, when a command is accepted (R7, R44, R363): the source registers, ROUNDS and
RETRY_LIMIT. All sixteen registers are kept, a superset of the command's own sources. -/
structure Snapshot where
  x : Vector Nat 16
  rounds : BitVec 16
  retryLimit : Word
deriving DecidableEq, Repr

/-- The engine's hidden working state between two draws (R56). Commands that draw nothing stay at `start`. -/
inductive Work where
  /-- Nothing done since the accept: a new accept starts it afresh (R56). -/
  | start
  /-- MRTEST in step 3 of R202 with `left` rounds to run. -/
  | rounds (left : Nat)
  /-- PRIMEGEN about to form a candidate, `count` candidates tested so far (R230). -/
  | search (count : Nat)
  /-- PRIMEGEN testing candidate `p`, its `count`-th, with `left` rounds to run. -/
  | probe (count p left : Nat)
deriving DecidableEq, Repr

/-- A command in flight, beside its word in CMD (R34). -/
structure Flight where
  snap : Snapshot
  work : Work
deriving DecidableEq, Repr

/-- One host access to the bus (R13): `size` in bytes, `addr` a byte address; a write drives the byte lanes
(R73). -/
inductive Access where
  | read (addr size : Nat)
  | write (addr size : Nat) (lanes : Lanes)
deriving DecidableEq, Repr

/-- One turn of an agent (R30) or of the platform. -/
inductive Turn where
  /-- The host makes one access (R75). -/
  | host (a : Access)
  /-- The engine moves. -/
  | engine
  /-- The RNG delivers one value (R52). -/
  | rng (v : Nat)
  /-- The platform drives the `rst` input (R352). -/
  | rst (level : Bool)
deriving DecidableEq, Repr

/-- The bus response to a host access (R13, R72): a read's data comes on the byte lanes (R73). -/
inductive Response where
  | data (lanes : Lanes)
  | written
  | busError
deriving DecidableEq, Repr

/-- Where the machine stops. -/
inductive Fault where
  /-- Raised by a host access whose address lies outside the 32 KiB window (R70): it reaches something else
  of the platform, not the engine. Safe: the model stops where the platform goes on. -/
  | outsideWindow (addr : Nat)
deriving DecidableEq, Repr

/-- What the machine gives no move. -/
inductive Refusal where
  /-- Raised by exec for a command without a meaning; no arm of this model raises it. Safe. -/
  | notModelled (mnemonic : String)
  /-- Raised by a host access while `rst` is asserted: the spec leaves the bus response open and has a model
  refuse it (R352, I4). Safe: the model stops. -/
  | accessDuringReset
deriving DecidableEq, Repr

/-- The state of one engine with its surroundings. The last four fields are the outside world's. -/
structure State where
  /-- The parameters OPW and BASE (R5); they never change. -/
  cfg : Config
  /-- x[0]..x[15], each a natural number below 2^OPW (R31). -/
  x : Vector Nat 16
  /-- CTRL.IRQ_EN (R43). -/
  irqEn : Bool
  /-- STATUS.DONE (R45). -/
  done : Bool
  /-- STATUS.ERR (R45). -/
  err : Bool
  /-- STATUS.COLL (R45). -/
  coll : Bool
  /-- CMD: the last accepted command word (R48). -/
  cmd : Word
  /-- ERRCODE; `none` is code 0, None (R49). -/
  errcode : Option CmdError
  /-- RES (R50). -/
  res : Word
  /-- ROUNDS[15:0] (R51). -/
  rounds : BitVec 16
  /-- RETRY_LIMIT (R53). -/
  retryLimit : Word
  /-- RETRY_COUNT (R54). -/
  retryCount : Word
  /-- The command in flight; STATUS.BUSY is 1 exactly when there is one (R34, R45). -/
  flight : Option Flight
  /-- The `rst` input (R352). -/
  rst : Bool
  /-- Values the RNG has delivered and the engine has not consumed, oldest first (R52; log entry 2). -/
  rng : List Nat
  /-- Turns still to come, oldest first (R30, R79; log entry 3). -/
  agenda : List Turn
  /-- The bus response of the last host access (R13; log entry 4). -/
  resp : Option Response
deriving DecidableEq, Repr

/-- The reset state of R350 for a configuration and given surroundings. -/
def State.resetWith (cfg : Config) (rst : Bool) (rng : List Nat) (agenda : List Turn)
    (resp : Option Response) : State where
  cfg := cfg
  x := Vector.replicate 16 0
  irqEn := false
  done := false
  err := false
  coll := false
  cmd := 0
  errcode := none
  res := 0
  rounds := 12
  retryLimit := 0
  retryCount := 0
  flight := none
  rst := rst
  rng := rng
  agenda := agenda
  resp := resp

/-- The machine right after reset (R350), `rst` released, in the reference configuration, nothing delivered,
nothing on the agenda and no access made (log entries 1 to 4). -/
def State.reset : State := State.resetWith Config.reference false [] [] none

/-- STATUS.BUSY (R34, R45). -/
def State.busy (s : State) : Bool := s.flight.isSome

end Sys2Proof.Machine
end

