-- ==== Sys2Proof/Machine/Ops.lean ====
section
/-! DEFINITION. The operations every agent goes through: reset, accept, the atomic completion of a command
with or without an error, the draw from the RNG port, and running a command's body on its snapshot
(spec 00_scope R7, R14, R15, R17; 10_state R44, R46; 60_exceptions R300; 70_reset R350, R351). -/

namespace Sys2Proof.Machine

open Sys2Proof

/-- The reset of R350 at this machine: every piece of engine state takes its reset value; the parameters,
the `rst` input, the RNG's deliveries, the agenda and the bus response are outside the engine (R351: draws
consumed stay consumed). -/
def engineReset (s : State) : State := State.resetWith s.cfg s.rst s.rng s.agenda s.resp

/-- What an accept reads once (R7, R44). -/
def takeSnapshot (s : State) : Snapshot := { x := s.x, rounds := s.rounds, retryLimit := s.retryLimit }

/-- Accept of word `w` (R44): CMD, the status changes and the snapshot, in one step; COLL unchanged. Every
word is accepted, an illegal one too. -/
def accept (w : Word) (s : State) : State :=
  { s with cmd := w, done := false, err := false, errcode := none,
           flight := some { snap := takeSnapshot s, work := .start } }

/-- The pending writes of a command (R7): registers in order, RES and RETRY_COUNT. -/
structure Commit where
  regs : List (Reg × Nat) := []
  res : Option Word := none
  retryCount : Option Word := none
deriving DecidableEq, Repr

/-- The pending writes of a command with one destination and no other result. -/
def Commit.reg (d : Reg) (v : Nat) : Commit := { regs := [(d, v)] }

/-- Write register values in order; the last write to a register stays. -/
def writeRegs (x : Vector Nat 16) : List (Reg × Nat) → Vector Nat 16
  | [] => x
  | (d, v) :: rest => writeRegs (x.set d v) rest

/-- Successful completion (R46): every pending write takes effect, BUSY ← 0 and DONE ← 1, in one step. -/
def succeed (c : Commit) (s : State) : State :=
  { s with x := writeRegs s.x c.regs, res := c.res.getD s.res, retryCount := c.retryCount.getD s.retryCount,
           flight := none, done := true }

/-- Completion with an error (R46, R300; the `raise` of R14): no pending write takes effect, BUSY ← 0,
DONE ← 1, ERR ← 1 and ERRCODE ← the code. This is the machine's one "exception entry": nothing is saved and
nothing is vectored (R308), so there is no return (R309). -/
def fail (e : CmdError) (s : State) : State :=
  { s with flight := none, done := true, err := true, errcode := some e }

/-- Completion with either outcome (R46). -/
def complete (r : Except CmdError Commit) (s : State) : State :=
  match r with
  | .ok c => succeed c s
  | .error e => fail e s

/-- One draw from the RNG port (R15, R52): the first delivered value in the requested range, with what is left
after it; `none` when no such value has been delivered. Delivered values out of range are rejected (log
entry 2). -/
def draw (inRange : Nat → Bool) : List Nat → Option (Nat × List Nat)
  | [] => none
  | v :: vs => if inRange v then some (v, vs) else draw inRange vs

/-- How far a drawing command gets on the values delivered so far. -/
inductive Progress where
  /-- It completes; `rest` has not been consumed. -/
  | ended (r : Except CmdError Commit) (rest : List Nat)
  /-- It waits for a draw; everything delivered has been consumed (R52). -/
  | waiting (w : Work)
deriving Repr

/-- Execute a command that draws nothing: its body sees the snapshot only (R7, R47) and completes (R46). With
no command in flight the engine takes no step (R34). -/
def run (body : Config → Snapshot → Except CmdError Commit) (s : State) :
    Host.Outcome State Fault Refusal :=
  match s.flight with
  | none => .next s
  | some f => .next (complete (body s.cfg f.snap) s)

/-- Execute a command that draws (R52): it goes on from its working state over the delivered values, and
either completes or waits with no architectural change. DESIGN CHOICE (log entry 13): one turn consumes every
delivered value the command asks for and completes with the last, which fixes what an abandoned command has
consumed (R351, I19). -/
def runDrawing (body : Config → Flight → List Nat → Progress) (s : State) :
    Host.Outcome State Fault Refusal :=
  match s.flight with
  | none => .next s
  | some f =>
    match body s.cfg f s.rng with
    | .ended r rest => .next (complete r { s with rng := rest })
    | .waiting w => .next { s with rng := [], flight := some { f with work := w } }

end Sys2Proof.Machine
end

