-- ==== Sys2Proof/Machine/Flags.lean ====
section
/-! DEFINITION. Every flag and status computation: the STATUS, CTRL and ERRCODE words, write-1-to-clear, the
sticky COLL and the irq output (spec 10_state R43, R45, R47, R49, R55). -/

namespace Sys2Proof.Machine

open Sys2Proof

/-- The number of an error in ERRCODE (R49, R301). -/
def CmdError.code : CmdError → Nat
  | .invalidArgument => 1
  | .invalidModulus => 2
  | .noInverseExists => 3
  | .overflow => 4
  | .generationTimeout => 5
  | .illegalCommand => 6

/-- The ERRCODE word: CODE in bits [3:0], 0 for None (R49). -/
def errcodeWord (s : State) : Word :=
  match s.errcode with
  | none => 0
  | some e => BitVec.ofNat 32 e.code

/-- The STATUS word: BUSY, DONE, ERR, COLL in bits 0..3, the rest 0 (R45). -/
def statusWord (s : State) : Word :=
  BitVec.ofNat 32 (bit s.busy + 2 * bit s.done + 4 * bit s.err + 8 * bit s.coll)

/-- The CTRL word: IRQ_EN in bit 0; SRST and the rest read 0 (R43). -/
def ctrlWord (s : State) : Word := BitVec.ofNat 32 (bit s.irqEn)

/-- A STATUS write: DONE and COLL are cleared by writing 1 to their bits, everything else is read-only (R45). -/
def clearStatus (v : Word) (s : State) : State :=
  { s with done := s.done && !v.getLsbD 1, coll := s.coll && !v.getLsbD 3 }

/-- A write dropped while BUSY = 1 changes nothing but COLL ← 1 (R40, R41, R44). -/
def collide (s : State) : State := { s with coll := true }

/-- The irq output (R55, R306). -/
def irq (s : State) : Bool := s.done && s.irqEn

end Sys2Proof.Machine
end

