-- ==== Sys2Proof/Machine/Operands.lean ====
section
/-! DEFINITION. Every operand form: source registers read from the snapshot, immediates, the four
destinations of SQRT4, the limbs through which the host sees a register, and the bus byte lanes (spec 10_state R32, R41;
20_memory R73, R84; 30_encoding R103). -/

namespace Sys2Proof.Machine

open Sys2Proof

/-- A source register: its value at the accept (R7, R32). -/
def Snapshot.src (p : Snapshot) (a : Reg) : Nat := p.x[a]

/-- IMM16, zero-extended (R103). -/
def immValue (imm : Imm) : Nat := imm.toNat

/-- The destination x[d+k] of SQRT4 (R254); D ≤ 12 keeps it from wrapping. -/
def rootReg (d : Reg) (k : Nat) : Reg := ⟨(d.val + k) % 16, Nat.mod_lt _ (by decide)⟩

/-- Limb k of a register value: bits [32k+31:32k] (R41, R73). -/
def limbOf (v k : Nat) : Word := BitVec.ofNat 32 (v / 2 ^ (32 * k))

/-- A register value with bits [32k+31:32k] replaced by `w` (R41). -/
def withLimb (v k : Nat) (w : Word) : Nat :=
  v / 2 ^ (32 * (k + 1)) * 2 ^ (32 * (k + 1)) + w.toNat * 2 ^ (32 * k) + v % 2 ^ (32 * k)

/-- A word on the byte lanes: the lane of byte address 4k + j carries bits [8j+7:8j] (R73). -/
def toLanes (w : Word) : Lanes :=
  #v[w.extractLsb' 0 8, w.extractLsb' 8 8, w.extractLsb' 16 8, w.extractLsb' 24 8]

/-- The word the byte lanes carry (R73). -/
def fromLanes (b : Lanes) : Word := b[3] ++ b[2] ++ b[1] ++ b[0]

end Sys2Proof.Machine
end

