-- ==== Sys2Proof/Machine/Bus.lean ====
section
/-! DEFINITION. The register window and the host's accesses to it (spec 10_state R40–R54, 20_memory R70–R77,
R84, 70_reset R351). -/

namespace Sys2Proof.Machine

open Sys2Proof

/-- What an aligned offset of the window names (R40, R41). -/
inductive Location where
  | id | param | ctrl | status | cmd | errcode | res | rounds | retryLimit | retryCount
  /-- Limb k of x[i], k < LIMBS. -/
  | limb (i : Reg) (k : Nat)
  /-- A word of the operand window above the register's width: RAZ/WI (R41, D38). -/
  | spareLimb
  /-- A reserved offset: RAZ/WI (R40, R77). -/
  | reserved
deriving DecidableEq, Repr

/-- The register of an operand-window offset: 0x400 bytes a register (R41, R84). -/
def windowReg (off : Nat) : Reg := ⟨(off - 0x1000) / 0x400 % 16, Nat.mod_lt _ (by decide)⟩

/-- The limb of an operand-window offset (R41, R84). -/
def windowLimb (off : Nat) : Nat := (off - 0x1000) % 0x400 / 4

/-- The register map of R40 and R41. -/
def locate (c : Config) (off : Nat) : Location :=
  if off = 0x000 then .id
  else if off = 0x004 then .param
  else if off = 0x008 then .ctrl
  else if off = 0x00C then .status
  else if off = 0x010 then .cmd
  else if off = 0x014 then .errcode
  else if off = 0x018 then .res
  else if off = 0x01C then .rounds
  else if off = 0x020 then .retryLimit
  else if off = 0x024 then .retryCount
  else if 0x1000 ≤ off ∧ off < 0x5000 then
    if windowLimb off < c.limbs then .limb (windowReg off) (windowLimb off) else .spareLimb
  else .reserved

/-- ID (R42, D37). -/
def idWord : Word := 0x52414249

/-- PARAM = (16 << 16) or (OPW/32) (R42). -/
def paramWord (c : Config) : Word := BitVec.ofNat 32 (16 * 2 ^ 16 + c.limbs)

/-- The word a read returns (R40–R54). A read has no side effect (R76), and while a command runs it returns
committed values (R41). -/
def readLocation (s : State) : Location → Word
  | .id => idWord
  | .param => paramWord s.cfg
  | .ctrl => ctrlWord s
  | .status => statusWord s
  | .cmd => s.cmd
  | .errcode => errcodeWord s
  | .res => s.res
  | .rounds => BitVec.ofNat 32 s.rounds.toNat
  | .retryLimit => s.retryLimit
  | .retryCount => s.retryCount
  | .limb i k => limbOf s.x[i] k
  | .spareLimb => 0
  | .reserved => 0

/-- A write that is dropped with COLL ← 1 while BUSY = 1, and performed by `f` otherwise (R40). -/
def unlessBusy (f : State → State) (s : State) : State := if s.busy then collide s else f s

/-- A CTRL write (R43): SRST = 1 resets the engine and the other bits are ignored (R351); else IRQ_EN takes
bit 0, whether or not a command runs. -/
def writeCtrl (v : Word) (s : State) : State :=
  if v.getLsbD 1 then engineReset s else { s with irqEn := v.getLsbD 0 }

/-- The effect of a 32-bit write (R40–R54). Writes to read-only and reserved words are ignored; log entry 6
on a busy write to a spare limb. -/
def writeLocation (v : Word) (s : State) : Location → State
  | .id => s
  | .param => s
  | .ctrl => writeCtrl v s
  | .status => clearStatus v s
  | .cmd => unlessBusy (accept v) s
  | .errcode => s
  | .res => s
  | .rounds => unlessBusy (fun s => { s with rounds := BitVec.ofNat 16 v.toNat }) s
  | .retryLimit => unlessBusy (fun s => { s with retryLimit := v }) s
  | .retryCount => s
  | .limb i k => unlessBusy (fun s => { s with x := s.x.set i (withLimb s.x[i] k v) }) s
  | .spareLimb => unlessBusy (fun s => s) s
  | .reserved => s

/-- The word at an offset of the window, as a read returns it. -/
def readOffset (s : State) (off : Nat) : Word := readLocation s (locate s.cfg off)

/-- A write of `v` to an offset of the window. -/
def writeOffset (s : State) (off : Nat) (v : Word) : State := writeLocation v s (locate s.cfg off)

/-- `addr` lies in the window BASE .. BASE + 0x7FFF (R70). -/
def inWindow (c : Config) (addr : Nat) : Bool := decide (c.base ≤ addr ∧ addr < c.base + 0x8000)

/-- The access is an aligned 32-bit one (R72). -/
def admitted (addr size : Nat) : Bool := decide (size = 4 ∧ addr % 4 = 0)

/-- One host access (R70–R76). Under `rst` it is refused (R352, I4); outside the window it stops; an access
of another size or alignment is a bus error with no other effect (R72, R318). Data crosses the bus on its byte
lanes (R73). -/
def hostAccess (a : Access) (s : State) : Host.Outcome State Fault Refusal :=
  if s.rst then .refused .accessDuringReset
  else
    match a with
    | .read addr size =>
      if inWindow s.cfg addr then
        if admitted addr size then
          .next { s with resp := some (.data (toLanes (readOffset s (addr - s.cfg.base)))) }
        else .next { s with resp := some .busError }
      else .fault (.outsideWindow addr)
    | .write addr size lanes =>
      if inWindow s.cfg addr then
        if admitted addr size then
          .next { writeOffset s (addr - s.cfg.base) (fromLanes lanes) with resp := some .written }
        else .next { s with resp := some .busError }
      else .fault (.outsideWindow addr)

/-- The byte offset of limb k of x[i] (R41, R84). -/
def limbOffset (i : Reg) (k : Nat) : Nat := 0x1000 + 0x400 * i.val + 4 * k

end Sys2Proof.Machine
end

