-- ==== Sys2Proof/Machine/Arith.lean ====
section
/-! DEFINITION. The arithmetic the units share, on naturals and exact (spec 00_scope R8–R10, 41 R162, R165,
44 R251, R253). -/

namespace Sys2Proof.Machine

open Sys2Proof

/-- bitlen(v): the number of bits of v without leading zeros (R10). -/
def bitlen (v : Nat) : Nat := if v = 0 then 0 else Nat.log2 v + 1

/-- ⌈a/b⌉ (R10). -/
def ceilDiv (a b : Nat) : Nat := (a + b - 1) / b

/-- The loop of R162 over exponent bits i−1 down to 0: square, and multiply where the bit is 1. -/
def powModLoop (b e m : Nat) : Nat → Nat → Nat
  | 0, acc => acc
  | i + 1, acc =>
    let sq := acc * acc % m
    powModLoop b e m i (if e.testBit i then sq * b % m else sq)

/-- pow(base, e) mod m by repeated squaring, most significant bit first (R162), for m > 0. -/
def powMod (base e m : Nat) : Nat := powModLoop (base % m) e m (bitlen e) (1 % m)

/-- The loop of R165: extended Euclid on (r0, r1) with signed coefficients, until r1 = 0. The first argument
bounds the number of turns; r1 falls at every turn, so any bound from r1 up gives the same result. -/
def egcdLoop : Nat → Nat → Nat → Int → Int → Nat × Int
  | 0, r0, _, t0, _ => (r0, t0)
  | n + 1, r0, r1, t0, t1 =>
    if r1 = 0 then (r0, t0)
    else egcdLoop n r1 (r0 - r0 / r1 * r1) t1 (t0 - (r0 / r1 : Nat) * t1)

/-- R165's (r0, t0) at the end of the loop: gcd(a, m), and a coefficient t0 with a·t0 ≡ gcd (mod m). -/
def egcd (a m : Nat) : Nat × Int := egcdLoop (a % m) m (a % m) 0 1

/-- inv(a, m) of R9, for m ≥ 1 and gcd(a, m) = 1: t0 normalised into [0, m). -/
def inv (a m : Nat) : Nat := ((egcd a m).2 % (m : Int)).toNat

/-- CrtBasis(p, q) of R251: a1 = q·inv(q mod p, p) and a2 = p·inv(p mod q, q). -/
def crtBasis (p q : Nat) : Nat × Nat := (q * inv (q % p) p, p * inv (p % q) q)

/-- The reconstruction of R250: (xp·a1 + xq·a2) mod n, for coprime p and q. -/
def crtCombine (xp xq p q : Nat) : Nat :=
  (xp * (crtBasis p q).1 + xq * (crtBasis p q).2) % (p * q)

/-- The four roots in the order r1, r2, r3, r4 (R253). -/
structure RootTuple where
  r1 : Nat
  r2 : Nat
  r3 : Nat
  r4 : Nat
deriving DecidableEq, Repr

/-- Roots(c, p, q) of R253. r1 and r3 are below n, so n − r1 and n − r3 are naturals. -/
def roots (c p q : Nat) : RootTuple :=
  let n := p * q
  let mp := powMod c ((p + 1) / 4) p
  let mq := powMod c ((q + 1) / 4) q
  let r1 := crtCombine mp mq p q
  let r3 := crtCombine (p - mp % p) mq p q
  { r1 := r1, r2 := (n - r1) % n, r3 := r3, r4 := (n - r3) % n }

/-- The checks SQRT4 and TRANSFORM share (R254, R280): InvalidModulus unless p ≡ q ≡ 3 (mod 4), p ≠ q and
gcd(p, q) = 1; then Overflow when p·q needs more than OPW bits. -/
def checkModuli (opw p q : Nat) : Except CmdError Unit :=
  if p % 4 ≠ 3 ∨ q % 4 ≠ 3 ∨ p = q ∨ Nat.gcd p q ≠ 1 then .error .invalidModulus
  else if p * q ≥ 2 ^ opw then .error .overflow
  else .ok ()

end Sys2Proof.Machine
end

