-- ==== Sys2Proof/Machine/Modular.lean ====
section
/-! DEFINITION. The modular arithmetic engine: MODMUL, MODPOW, MODINV, FITW (spec 41_bigint_adapter). The
multiplier's Montgomery form is internal and never visible (R161); results are the canonical residues. -/

namespace Sys2Proof.Machine

open Sys2Proof

/-- MODMUL's result (R160). -/
def modmulValue (a b m : Nat) : Except CmdError Nat :=
  if m = 0 then .error .invalidArgument else .ok (a * b % m)

/-- MODPOW's result (R162). -/
def modpowValue (base e m : Nat) : Except CmdError Nat :=
  if m = 0 then .error .invalidArgument else .ok (powMod base e m)

/-- MODINV's result (R165): InvalidArgument before NoInverseExists (R304). -/
def modinvValue (a m : Nat) : Except CmdError Nat :=
  if m = 0 then .error .invalidArgument
  else if (egcd a m).1 ≠ 1 then .error .noInverseExists
  else .ok (inv a m)

/-- FITW's result (R168): the value, if it fits `w` bytes; never truncated. -/
def fitwValue (v w : Nat) : Except CmdError Nat :=
  if v ≥ 2 ^ (8 * w) then .error .overflow else .ok v

/-- MODMUL (R160). -/
def execModmul (d a b c : Reg) (s : State) : Host.Outcome State Fault Refusal :=
  run (fun _ p => (modmulValue (p.src a) (p.src b) (p.src c)).map (Commit.reg d)) s

/-- MODPOW (R162). -/
def execModpow (d a b c : Reg) (s : State) : Host.Outcome State Fault Refusal :=
  run (fun _ p => (modpowValue (p.src a) (p.src b) (p.src c)).map (Commit.reg d)) s

/-- MODINV (R165). -/
def execModinv (d a c : Reg) (s : State) : Host.Outcome State Fault Refusal :=
  run (fun _ p => (modinvValue (p.src a) (p.src c)).map (Commit.reg d)) s

/-- FITW (R168). -/
def execFitw (d a : Reg) (width : Imm) (s : State) : Host.Outcome State Fault Refusal :=
  run (fun _ p => (fitwValue (p.src a) (immValue width)).map (Commit.reg d)) s

end Sys2Proof.Machine
end

