-- ==== Sys2Proof/Machine/Move.lean ====
section
/-! DEFINITION. Data movement and multiply: MOV, LDI, MUL (spec 40_move). -/

namespace Sys2Proof.Machine

open Sys2Proof

/-- MUL's result (R142): the exact product, or Overflow. -/
def mulValue (opw a b : Nat) : Except CmdError Nat :=
  if a * b ≥ 2 ^ opw then .error .overflow else .ok (a * b)

/-- MOV (R140): the register is copied whole. -/
def execMov (d a : Reg) (s : State) : Host.Outcome State Fault Refusal :=
  run (fun _ p => .ok (Commit.reg d (p.src a))) s

/-- LDI (R141): the zero-extended immediate. -/
def execLdi (d : Reg) (imm : Imm) (s : State) : Host.Outcome State Fault Refusal :=
  run (fun _ _ => .ok (Commit.reg d (immValue imm))) s

/-- MUL (R142). -/
def execMul (d a b : Reg) (s : State) : Host.Outcome State Fault Refusal :=
  run (fun c p => (mulValue c.opw (p.src a) (p.src b)).map (Commit.reg d)) s

end Sys2Proof.Machine
end

