-- ==== Sys2Proof/Machine/Primality.lean ====
section
/-! DEFINITION. The Miller–Rabin primality tester: IsProbablePrime on the values the RNG has delivered, and
MRTEST (spec 42_primality). -/

namespace Sys2Proof.Machine

open Sys2Proof

/-- SP, the small primes of the fast path (R5, R202). -/
def smallPrimes : List Nat := [2, 3, 5, 7, 11, 13, 17, 19, 23, 29, 31]

/-- Step 1 of R202: the answer of the range check and the small-prime fast path, or `none` when n goes on to
the rounds. -/
def fastPath (n : Nat) : Option Bool :=
  if n < 2 then some false
  else if n ∈ smallPrimes then some true
  else if smallPrimes.any (fun p => n % p == 0) then some false
  else none

/-- The loop of step 2 of R202: halve d while it is even. The first argument bounds the number of turns. -/
def oddPartLoop : Nat → Nat → Nat → Nat × Nat
  | 0, d, s => (d, s)
  | k + 1, d, s => if d % 2 = 0 then oddPartLoop k (d / 2) (s + 1) else (d, s)

/-- Step 2 of R202: (d, s) with n − 1 = d·2^s and d odd, for n ≥ 2. -/
def oddPart (n : Nat) : Nat × Nat := oddPartLoop (bitlen (n - 1)) (n - 1) 0

/-- The inner loop of step 3: square up to k times; true when some square equals n − 1 (R202, R205). -/
def squaresReach (n : Nat) : Nat → Nat → Bool
  | 0, _ => false
  | k + 1, x =>
    let sq := x * x % n
    if sq = n - 1 then true else squaresReach n k sq

/-- One round of step 3 with witness a: true when n passes it (R202). -/
def passesRound (n a : Nat) : Bool :=
  let d := (oddPart n).1
  let s := (oddPart n).2
  let x := powMod a d n
  if x = 1 ∨ x = n - 1 then true else squaresReach n (s - 1) x

/-- The range of DrawWitness(n): 2 ≤ a ≤ n − 2 (R15, R203). -/
def witnessRange (n a : Nat) : Bool := decide (2 ≤ a ∧ a ≤ n - 2)

/-- How far IsProbablePrime gets on the values delivered so far. -/
inductive Verdict where
  /-- It has its answer; `rest` has not been consumed. -/
  | answer (b : Bool) (rest : List Nat)
  /-- It waits for a witness with `left` rounds to run. -/
  | needs (left : Nat)
deriving DecidableEq, Repr

/-- Step 3 of R202: `left` rounds in order, one witness drawn at the start of each (R203); a failed round
answers false at once, all rounds passed answers true. -/
def mrRounds (n : Nat) : Nat → List Nat → Verdict
  | 0, ds => .answer true ds
  | left + 1, ds =>
    match draw (witnessRange n) ds with
    | none => .needs (left + 1)
    | some (a, rest) => if passesRound n a then mrRounds n left rest else .answer false rest

/-- IsProbablePrime(n, rounds) of R202 on delivered values. -/
def isProbablePrime (n rounds : Nat) (ds : List Nat) : Verdict :=
  match fastPath n with
  | some b => .answer b ds
  | none => mrRounds n rounds ds

/-- IsProbablePrime(n, rounds) for MRTEST from a working state: on from the round it waits in, or afresh. -/
def mrtestVerdict (n rounds : Nat) : Work → List Nat → Verdict
  | .rounds left, ds => mrRounds n left ds
  | .start, ds => isProbablePrime n rounds ds
  | .search _, ds => isProbablePrime n rounds ds
  | .probe _ _ _, ds => isProbablePrime n rounds ds

/-- MRTEST's completion (R201), or its wait. -/
def mrtestProgress : Verdict → Progress
  | .answer b rest => .ended (.ok { res := some (BitVec.ofNat 32 (bit b)) }) rest
  | .needs left => .waiting (.rounds left)

/-- MRTEST's body (R200). -/
def mrtestBody (a : Reg) (f : Flight) (ds : List Nat) : Progress :=
  mrtestProgress (mrtestVerdict (f.snap.src a) f.snap.rounds.toNat f.work ds)

/-- MRTEST (R200). -/
def execMrtest (a : Reg) (s : State) : Host.Outcome State Fault Refusal :=
  runDrawing (fun _ f ds => mrtestBody a f ds) s

end Sys2Proof.Machine
end

