-- ==== Sys2Proof/Machine/PrimeGenerator.lean ====
section
/-! DEFINITION. The prime generator PRIMEGEN (spec 43_prime_generator), a sequencer command over the
Miller–Rabin tester. -/

namespace Sys2Proof.Machine

open Sys2Proof

/-- The range of DrawCandidate(bits): 0 ≤ r < 2^bits (R15, R230). -/
def candidateRange (bits r : Nat) : Bool := decide (r < 2 ^ bits)

/-- Candidate construction p = r or 2^(bits−1) or 3 (R231). -/
def candidate (bits r : Nat) : Nat := r ||| 2 ^ (bits - 1) ||| 3

/-- PRIMEGEN's success: x[d] ← p and RETRY_COUNT ← count mod 2^32 (R230, R233). -/
def foundPrime (d : Reg) (p count : Nat) : Commit :=
  { regs := [(d, p)], retryCount := some (BitVec.ofNat 32 count) }

/-- The loop of R230 with `count` candidates tested so far: cap check, candidate draw, test. The first argument
bounds the number of candidates; each consumes a delivered value, so any bound from the number of delivered
values up gives the same result. -/
def searchLoop (d : Reg) (bits rounds limit : Nat) : Nat → Nat → List Nat → Progress
  | fuel, count, ds =>
    if limit ≠ 0 ∧ count = limit then .ended (.error .generationTimeout) ds
    else
      match draw (candidateRange bits) ds with
      | none => .waiting (.search count)
      | some (r, rest) =>
        match isProbablePrime (candidate bits r) rounds rest with
        | .answer true rest' => .ended (.ok (foundPrime d (candidate bits r) (count + 1))) rest'
        | .needs left => .waiting (.probe (count + 1) (candidate bits r) left)
        | .answer false rest' =>
          match fuel with
          | 0 => .waiting (.search (count + 1))
          | fuel + 1 => searchLoop d bits rounds limit fuel (count + 1) rest'

/-- The loop of R230 on delivered values. -/
def search (d : Reg) (bits rounds limit count : Nat) (ds : List Nat) : Progress :=
  searchLoop d bits rounds limit ds.length count ds

/-- PRIMEGEN on from a candidate p it waits in, its `count`-th, with `left` rounds to run. -/
def resumeProbe (d : Reg) (bits rounds limit count p left : Nat) (ds : List Nat) : Progress :=
  match mrRounds p left ds with
  | .answer true rest => .ended (.ok (foundPrime d p count)) rest
  | .needs left' => .waiting (.probe count p left')
  | .answer false rest => search d bits rounds limit count rest

/-- The search from a working state: on from where it waits, or afresh. -/
def primegenFrom (d : Reg) (bits rounds limit : Nat) : Work → List Nat → Progress
  | .search count, ds => search d bits rounds limit count ds
  | .probe count p left, ds => resumeProbe d bits rounds limit count p left ds
  | .start, ds => search d bits rounds limit 0 ds
  | .rounds _, ds => search d bits rounds limit 0 ds

/-- PRIMEGEN's body (R230): the bit-length check comes before any draw; then the search. -/
def primegenBody (d : Reg) (bits : Imm) (c : Config) (f : Flight) (ds : List Nat) : Progress :=
  if immValue bits < 2 ∨ immValue bits > c.opw then .ended (.error .invalidArgument) ds
  else primegenFrom d (immValue bits) f.snap.rounds.toNat f.snap.retryLimit.toNat f.work ds

/-- PRIMEGEN (R230). -/
def execPrimegen (d : Reg) (bits : Imm) (s : State) : Host.Outcome State Fault Refusal :=
  runDrawing (primegenBody d bits) s

end Sys2Proof.Machine
end

