-- ==== Sys2Proof/Machine/RootSolver.lean ====
section
/-! DEFINITION. The CRT reconstructor and the square-root solver: CRT, SQRT4 (spec 44_root_solver). -/

namespace Sys2Proof.Machine

open Sys2Proof

/-- CRT's result (R250), its three checks in order (R304). -/
def crtValue (opw xp xq p q : Nat) : Except CmdError Nat :=
  if p = 0 ∨ q = 0 then .error .invalidArgument
  else if Nat.gcd p q ≠ 1 then .error .invalidModulus
  else if p * q ≥ 2 ^ opw then .error .overflow
  else .ok (crtCombine xp xq p q)

/-- SQRT4's result (R254), its checks in order (R304). -/
def sqrt4Value (opw c p q : Nat) : Except CmdError RootTuple :=
  (checkModuli opw p q).map (fun _ => roots c p q)

/-- The four destinations of SQRT4 (R254, D20). -/
def rootsCommit (d : Reg) (r : RootTuple) : Commit :=
  { regs := [(rootReg d 0, r.r1), (rootReg d 1, r.r2), (rootReg d 2, r.r3), (rootReg d 3, r.r4)] }

/-- CRT (R250). -/
def execCrt (d a b c e : Reg) (s : State) : Host.Outcome State Fault Refusal :=
  run (fun cf p => (crtValue cf.opw (p.src a) (p.src b) (p.src c) (p.src e)).map (Commit.reg d)) s

/-- SQRT4 (R254); D ≥ 13 is an illegal command (R110), which the decoder has already turned away. -/
def execSqrt4 (d a c e : Reg) (s : State) : Host.Outcome State Fault Refusal :=
  run (fun cf p =>
    if d.val > 12 then .error .illegalCommand
    else (sqrt4Value cf.opw (p.src a) (p.src c) (p.src e)).map (rootsCommit d)) s

end Sys2Proof.Machine
end

