-- ==== Sys2Proof/Machine/Transform.lean ====
section
/-! DEFINITION. The transform combiner TRANSFORM (spec 45_transform). -/

namespace Sys2Proof.Machine

open Sys2Proof

/-- The XOR width w = ⌈bitlen(n)/8⌉ in bytes (R281). -/
def byteWidth (n : Nat) : Nat := ceilDiv (bitlen n) 8

/-- The XOR of the four roots (R280 step 5). -/
def xorRoots (r : RootTuple) : Nat := r.r1 ^^^ r.r2 ^^^ r.r3 ^^^ r.r4

/-- TRANSFORM's result and width (R280), its checks in order (R304): m first, then the moduli. -/
def transformValue (opw m p q : Nat) : Except CmdError (Nat × Nat) :=
  if m = 0 ∨ m ≥ p * q then .error .invalidArgument
  else (checkModuli opw p q).map
    (fun _ => (xorRoots (roots (m * m % (p * q)) p q), byteWidth (p * q)))

/-- TRANSFORM's two results: x[d] and RES (R280). -/
def transformCommit (d : Reg) (r : Nat × Nat) : Commit :=
  { regs := [(d, r.1)], res := some (BitVec.ofNat 32 r.2) }

/-- TRANSFORM (R280). -/
def execTransform (d a c e : Reg) (s : State) : Host.Outcome State Fault Refusal :=
  run (fun cf p => (transformValue cf.opw (p.src a) (p.src c) (p.src e)).map (transformCommit d)) s

end Sys2Proof.Machine
end

