-- ==== Sys2Proof/Machine/Dispatch.lean ====
section
/-! DEFINITION. The dispatch of a decoded command to its meaning, in the order of the opcode map (R104). -/

namespace Sys2Proof.Machine

open Sys2Proof

def exec (i : Instr) (s : State) : Host.Outcome State Fault Refusal :=
  match i with
  | .mov d a => Sys2Proof.Machine.execMov d a s
  | .ldi d imm => Sys2Proof.Machine.execLdi d imm s
  | .mul d a b => Sys2Proof.Machine.execMul d a b s
  | .modmul d a b c => Sys2Proof.Machine.execModmul d a b c s
  | .modpow d a b c => Sys2Proof.Machine.execModpow d a b c s
  | .modinv d a c => Sys2Proof.Machine.execModinv d a c s
  | .fitw d a width => Sys2Proof.Machine.execFitw d a width s
  | .mrtest a => Sys2Proof.Machine.execMrtest a s
  | .primegen d bits => Sys2Proof.Machine.execPrimegen d bits s
  | .crt d a b c e => Sys2Proof.Machine.execCrt d a b c e s
  | .sqrt4 d a c e => Sys2Proof.Machine.execSqrt4 d a c e s
  | .transform d a c e => Sys2Proof.Machine.execTransform d a c e s

end Sys2Proof.Machine
end

