-- ==== Sys2Proof/Machine/Agents.lean ====
section
/-! DEFINITION. The turns of the agents (spec 10_state R30): the engine's turn on the command in flight, a host
access, an RNG delivery, and the `rst` input. -/

namespace Sys2Proof.Machine

open Sys2Proof

/-- The engine executes the word in CMD: its command's meaning, or IllegalCommand for a word that spells none
(R17, R106, R110). -/
def execWord (s : State) : Host.Outcome State Fault Refusal :=
  match decode s.cmd with
  | .ok i => exec i s
  | .error _ => .next (fail .illegalCommand s)

/-- The engine's turn: while BUSY = 0 it takes no step (R34, R317), and while `rst` is asserted it is held
(R352). -/
def engineTurn (s : State) : Host.Outcome State Fault Refusal :=
  if s.rst then .next s
  else if s.busy then execWord s
  else .next s

/-- The RNG delivers one value, behind those not yet consumed (R52). -/
def deliver (v : Nat) (s : State) : State := { s with rng := s.rng ++ [v] }

/-- The `rst` input changes: asserted, the engine is in the reset state (R350, R352); released, it is idle
there. -/
def driveRst (level : Bool) (s : State) : State :=
  if level then { engineReset s with rst := true } else { s with rst := false }

/-- One turn of one agent (R30). -/
def takeTurn (t : Turn) (s : State) : Host.Outcome State Fault Refusal :=
  match t with
  | .host a => hostAccess a s
  | .engine => engineTurn s
  | .rng v => .next (deliver v s)
  | .rst level => .next (driveRst level s)

/-- The next turn: the oldest of the agenda, or the engine's when the agenda is empty (log entry 3). -/
def nextTurn (s : State) : Host.Outcome State Fault Refusal :=
  match s.agenda with
  | [] => engineTurn s
  | t :: rest => takeTurn t { s with agenda := rest }

/-- `w` accepted with `rst` released, and the very next turn the engine's: what a host's CMD write leaves
(R44). -/
def issueWord (w : Word) (s : State) : State :=
  { accept w s with rst := false, agenda := .engine :: s.agenda }

end Sys2Proof.Machine
end

