-- ==== Sys2Proof/Machine/Step.lean ====
section
/-! DEFINITION. One step of the machine, and where its next instruction stands: RABIN-CORE fetches nothing
(spec 10_state R33), a command comes to run by an accepted CMD write (R44, R48; log entry 7). -/

namespace Sys2Proof.Machine

open Sys2Proof

/-- One step: the next turn of the agents. -/
def step (s : State) : Host.Outcome State Fault Refusal := nextTurn s

/-- `s` after the accept of the table row's word, so that the very next step executes it (log entry 7). -/
def State.withFetchWord (s : State) (nbits w : Nat) : State :=
  issueWord (BitVec.ofNat 32 (w % 2 ^ nbits)) s

end Sys2Proof.Machine
end

