-- ==== Sys2Proof/Machine/Assembler.lean ====
section
/-! DEFINITION. The assembler's line syntax, its rejections and the pseudo-instructions (spec 30_encoding
R120–R123). A line is a list of characters. -/

namespace Sys2Proof.Machine

open Sys2Proof

/-- Why the assembler rejects a line (R122). -/
inductive AsmError where
  | unknownMnemonic
  | operandCount
  | badRegister
  | badImmediate
  | sqrt4Destination
deriving DecidableEq, Repr

/-- The pseudo-instructions of R123. -/
inductive Pseudo where
  /-- CLR Bd. -/
  | clr (d : Reg)
  /-- SQR Bd, Ba, Bc. -/
  | sqr (d a c : Reg)
  /-- NMOD Bd, Bp, Bq. -/
  | nmod (d p q : Reg)
deriving DecidableEq, Repr

/-- The expansion of a pseudo-instruction (R123). -/
def Pseudo.expand : Pseudo → Instr
  | .clr d => .ldi d 0
  | .sqr d a c => .modmul d a a c
  | .nmod d p q => .mul d p q

/-- Is `c` white space between the parts of a line? DESIGN CHOICE (log entry 11): space and tab. -/
def isBlank (c : Char) : Bool := c == ' ' || c == '\t'

/-- A part without the white space around it. -/
def trimmed (cs : List Char) : List Char := ((cs.dropWhile isBlank).reverse.dropWhile isBlank).reverse

/-- The line without its comment, which starts at ';' (R120). -/
def withoutComment (cs : List Char) : List Char := cs.takeWhile (fun c => c != ';')

/-- The parts between commas, trimmed; no part at all where nothing stands. -/
def splitCommas (cs : List Char) : List (List Char) :=
  if trimmed cs = [] then [] else (cs.splitOn ',').map trimmed

/-- The value of a digit in a base up to 16. -/
def digitValue (c : Char) : Option Nat :=
  if '0' ≤ c ∧ c ≤ '9' then some (c.toNat - '0'.toNat)
  else if 'a' ≤ c ∧ c ≤ 'f' then some (c.toNat - 'a'.toNat + 10)
  else if 'A' ≤ c ∧ c ≤ 'F' then some (c.toNat - 'A'.toNat + 10)
  else none

/-- The number `cs` spells in `base`, on from `acc`; every character must be a digit of the base. -/
def digitsFrom (base : Nat) : Nat → List Char → Option Nat
  | acc, [] => some acc
  | acc, c :: cs =>
    match digitValue c with
    | some v => if v < base then digitsFrom base (acc * base + v) cs else none
    | none => none

/-- A non-empty digit sequence. -/
def number (base : Nat) (cs : List Char) : Option Nat := if cs = [] then none else digitsFrom base 0 cs

/-- The register names B0..B15 (R120). -/
def registerNames : List (List Char) :=
  ["B0", "B1", "B2", "B3", "B4", "B5", "B6", "B7", "B8", "B9", "B10", "B11", "B12", "B13", "B14",
   "B15"].map String.toList

/-- A register operand (R120, R122). -/
def asmReg (cs : List Char) : Except AsmError Reg :=
  if h : registerNames.idxOf cs < 16 then .ok ⟨registerNames.idxOf cs, h⟩ else .error .badRegister

/-- An immediate operand: decimal, or 0x and hex digits, in 0..65535 (R120, R122). -/
def asmImm (cs : List Char) : Except AsmError Imm :=
  let v :=
    match cs with
    | '0' :: 'x' :: hex => number 16 hex
    | _ => number 10 cs
  match v with
  | some n => if n < 2 ^ 16 then .ok (BitVec.ofNat 16 n) else .error .badImmediate
  | none => .error .badImmediate

/-- One register operand. -/
def ops1 (f : Reg → Instr) : List (List Char) → Except AsmError Instr
  | [a] => do return f (← asmReg a)
  | _ => .error .operandCount

/-- Two register operands. -/
def ops2 (f : Reg → Reg → Instr) : List (List Char) → Except AsmError Instr
  | [a, b] => do return f (← asmReg a) (← asmReg b)
  | _ => .error .operandCount

/-- Three register operands. -/
def ops3 (f : Reg → Reg → Reg → Instr) : List (List Char) → Except AsmError Instr
  | [a, b, c] => do return f (← asmReg a) (← asmReg b) (← asmReg c)
  | _ => .error .operandCount

/-- Four register operands. -/
def ops4 (f : Reg → Reg → Reg → Reg → Instr) : List (List Char) → Except AsmError Instr
  | [a, b, c, e] => do return f (← asmReg a) (← asmReg b) (← asmReg c) (← asmReg e)
  | _ => .error .operandCount

/-- Five register operands. -/
def ops5 (f : Reg → Reg → Reg → Reg → Reg → Instr) : List (List Char) → Except AsmError Instr
  | [a, b, c, e, g] => do return f (← asmReg a) (← asmReg b) (← asmReg c) (← asmReg e) (← asmReg g)
  | _ => .error .operandCount

/-- A register and an immediate. -/
def opsI (f : Reg → Imm → Instr) : List (List Char) → Except AsmError Instr
  | [a, n] => do return f (← asmReg a) (← asmImm n)
  | _ => .error .operandCount

/-- Two registers and an immediate. -/
def ops2I (f : Reg → Reg → Imm → Instr) : List (List Char) → Except AsmError Instr
  | [a, b, n] => do return f (← asmReg a) (← asmReg b) (← asmImm n)
  | _ => .error .operandCount

/-- The syntax rows of R121 and R123, by mnemonic in capitals. -/
def syntaxRows : List (List Char × (List (List Char) → Except AsmError Instr)) :=
  [("MOV".toList, ops2 .mov),
   ("LDI".toList, opsI .ldi),
   ("MUL".toList, ops3 .mul),
   ("MODMUL".toList, ops4 .modmul),
   ("MODPOW".toList, ops4 .modpow),
   ("MODINV".toList, ops3 .modinv),
   ("FITW".toList, ops2I .fitw),
   ("MRTEST".toList, ops1 .mrtest),
   ("PRIMEGEN".toList, opsI .primegen),
   ("CRT".toList, ops5 .crt),
   ("SQRT4".toList, ops4 .sqrt4),
   ("TRANSFORM".toList, ops4 .transform),
   ("CLR".toList, ops1 (fun d => (Pseudo.clr d).expand)),
   ("SQR".toList, ops3 (fun d a c => (Pseudo.sqr d a c).expand)),
   ("NMOD".toList, ops3 (fun d p q => (Pseudo.nmod d p q).expand))]

/-- The command a line spells (R120, R121): the mnemonic is case-insensitive, operands are separated by
commas; a line with SQRT4 and d > 12 is rejected (R122). DESIGN CHOICE (log entry 11): a blank or comment-only
line spells no command and is rejected as an unknown mnemonic. -/
def assembleInstr (line : List Char) : Except AsmError Instr :=
  let body := trimmed (withoutComment line)
  let name := (body.takeWhile (fun c => !isBlank c)).map Char.toUpper
  let operands := splitCommas (body.dropWhile (fun c => !isBlank c))
  match syntaxRows.find? (fun row => row.1 == name) with
  | none => .error .unknownMnemonic
  | some row =>
    match row.2 operands with
    | .error e => .error e
    | .ok i => if i.wf then .ok i else .error .sqrt4Destination

/-- The word a line assembles to, or its rejection (R120–R122). -/
def assemble (line : List Char) : Except AsmError Word := (assembleInstr line).map encode

end Sys2Proof.Machine
end

