-- ==== Sys2Proof/Machine/Reference.lean ====
section
/-! DEFINITION. The reference functions of the source's fixed-width encoding (spec 00_scope R16). The hardware
does not compute them: they say what FITW and TRANSFORM mean for a host (41 R169, 45 R282, R283). -/

namespace Sys2Proof.Machine

open Sys2Proof

/-- FWB(v, w) without its range check: w bytes, unsigned big-endian, zero-padded on the left (R16). -/
def fwbBytes (v : Nat) : Nat → List Byte
  | 0 => []
  | w + 1 => BitVec.ofNat 8 (v / 2 ^ (8 * w)) :: fwbBytes v w

/-- FWB(v, w) of R16: it fails with Overflow for v ≥ 2^(8w) and never truncates. -/
def fwb (v w : Nat) : Except CmdError (List Byte) :=
  if v ≥ 2 ^ (8 * w) then .error .overflow else .ok (fwbBytes v w)

/-- FWD of R16: the value of a big-endian byte sequence. -/
def fwd : List Byte → Nat
  | [] => 0
  | b :: bs => b.toNat * 2 ^ (8 * bs.length) + fwd bs

/-- The lane-wise combination of two byte sequences (R282). -/
def xorLanes (a b : List Byte) : List Byte := List.zipWith (· ^^^ ·) a b

end Sys2Proof.Machine
end

