-- ==== Sys2Proof/Machine/Script.lean ====
section
/-! DEFINITION. The host-script notation as turns of the agenda (spec 30_encoding R125): what a host puts on
the bus for SET, WR, RD and EXEC. -/

namespace Sys2Proof.Machine

open Sys2Proof

/-- One MemWrite of `v` to the word at `off` (WR of R125), on the byte lanes of R73. -/
def wrTurn (c : Config) (off : Nat) (v : Word) : Turn := .host (.write (c.base + off) 4 (toLanes v))

/-- One MemRead of the word at `off` (RD of R125). -/
def rdTurn (c : Config) (off : Nat) : Turn := .host (.read (c.base + off) 4)

/-- The limb writes of `SET Bi = v` from limb k on, n of them (R84, R125). -/
def setTurnsFrom (c : Config) (i : Reg) (v : Nat) : Nat → Nat → List Turn
  | _, 0 => []
  | k, n + 1 => wrTurn c (limbOffset i k) (limbOf v k) :: setTurnsFrom c i v (k + 1) n

/-- `SET Bi = v`: MemWrite of all OPW/32 limbs (R84, R125). -/
def setTurns (c : Config) (i : Reg) (v : Nat) : List Turn := setTurnsFrom c i v 0 c.limbs

/-- `EXEC`: the CMD write, the engine's turn, and the STATUS read that finds it complete (R125). A command that
waits on the RNG needs deliveries and more engine turns between. -/
def execTurns (c : Config) (w : Word) : List Turn := [wrTurn c 0x010 w, .engine, rdTurn c 0x00C]

end Sys2Proof.Machine
end

