-- ==== Sys2Proof/Safety.lean ====
section
/-! DEFINITION. What claims are stated in: the invariant of the machine, the frame of a command, and the
terms for a command in flight (spec 10_state R31, R34, R45–R47). -/

namespace Sys2Proof.Machine

open Sys2Proof

/-- The hidden working state fits the word in CMD (R56): only MRTEST and PRIMEGEN leave `start`, an MRTEST
that waits is past the fast path with a round to run, a PRIMEGEN that waits has not reached its cap, and its
candidate has the form of R231. -/
def workFits (c : Config) (cmd : Word) (p : Snapshot) : Work → Prop
  | .start => True
  | .rounds left =>
    ∃ a, decode cmd = .ok (.mrtest a) ∧ fastPath (p.src a) = none ∧ 1 ≤ left ∧ left ≤ p.rounds.toNat
  | .search count =>
    ∃ d bits, decode cmd = .ok (.primegen d bits) ∧ 2 ≤ bits.toNat ∧ bits.toNat ≤ c.opw ∧
      (p.retryLimit ≠ 0 → count < p.retryLimit.toNat)
  | .probe count q left =>
    ∃ d bits, decode cmd = .ok (.primegen d bits) ∧ 2 ≤ bits.toNat ∧ bits.toNat ≤ c.opw ∧
      (∃ r, r < 2 ^ bits.toNat ∧ q = candidate bits.toNat r) ∧ fastPath q = none ∧
      1 ≤ count ∧ (p.retryLimit ≠ 0 → count ≤ p.retryLimit.toNat) ∧
      1 ≤ left ∧ left ≤ p.rounds.toNat

/-- The invariant of the machine. -/
structure State.Inv (s : State) : Prop where
  /-- The parameters are legal (R5). -/
  config : s.cfg.wf
  /-- Each register holds a natural below 2^OPW (R31). -/
  regs : ∀ r : Reg, s.x[r] < 2 ^ s.cfg.opw
  /-- ERR = 1 exactly when ERRCODE is not None (R44, R46, R49). -/
  errcode : s.err = true ↔ s.errcode ≠ none
  /-- BUSY = 1 and DONE = 1 never hold together, and a command in flight has no error yet (R44, R45). -/
  busy : s.busy = true → s.done = false ∧ s.err = false
  /-- What a running command snapshotted is still what the registers hold: writes are dropped (R41, R363). -/
  snap : ∀ f, s.flight = some f → f.snap = takeSnapshot s
  /-- The working state fits the command (R56). -/
  work : ∀ f, s.flight = some f → workFits s.cfg s.cmd f.snap f.work
  /-- While `rst` is asserted the engine is in the reset state (R352). -/
  held : s.rst = true → s = engineReset s

/-- The command in flight is at its beginning: accepted, nothing executed (R17). -/
def State.accepted (s : State) (p : Snapshot) : Prop := s.flight = some { snap := p, work := .start }

/-- A command with snapshot `p` is in flight, at its beginning or waiting (R34). -/
def State.inFlight (s : State) (p : Snapshot) : Prop := ∃ w, s.flight = some { snap := p, work := w }

/-- The frame of a command: from `s` to `t` no register outside `dst` changes, and no control register but
STATUS and ERRCODE; RES, RETRY_COUNT and the delivered values change only where the command may write or
consume them (R32, R47, R50, R52, R54). -/
structure Frame (dst : List Reg) (mayRes mayCount mayDraw : Bool) (s t : State) : Prop where
  regs : ∀ r : Reg, r ∉ dst → t.x[r] = s.x[r]
  cfg : t.cfg = s.cfg
  irqEn : t.irqEn = s.irqEn
  coll : t.coll = s.coll
  cmd : t.cmd = s.cmd
  rounds : t.rounds = s.rounds
  retryLimit : t.retryLimit = s.retryLimit
  rst : t.rst = s.rst
  agenda : t.agenda = s.agenda
  resp : t.resp = s.resp
  res : mayRes = false → t.res = s.res
  retryCount : mayCount = false → t.retryCount = s.retryCount
  rng : mayDraw = false → t.rng = s.rng
  consumed : ∃ used, s.rng = used ++ t.rng

/-- `t` is `s` after a completion with error `e` (R46, R300): nothing else changes. -/
def failedWith (e : CmdError) (s : State) : State :=
  { s with flight := none, done := true, err := true, errcode := some e }

/-- `t` is `s` after a success that writes `v` to x[d] only (R46). -/
def wroteReg (d : Reg) (v : Nat) (s : State) : State :=
  { s with x := s.x.set d v, flight := none, done := true }

/-- The destinations of a command (R32, R254). -/
def destinations : Instr → List Reg
  | .mov d _ => [d]
  | .ldi d _ => [d]
  | .mul d _ _ => [d]
  | .modmul d _ _ _ => [d]
  | .modpow d _ _ _ => [d]
  | .modinv d _ _ => [d]
  | .fitw d _ _ => [d]
  | .mrtest _ => []
  | .primegen d _ => [d]
  | .crt d _ _ _ _ => [d]
  | .sqrt4 d _ _ _ => [rootReg d 0, rootReg d 1, rootReg d 2, rootReg d 3]
  | .transform d _ _ _ => [d]

/-- The commands that write RES (R32, R50). -/
def writesRes : Instr → Bool
  | .mrtest _ => true
  | .transform _ _ _ _ => true
  | _ => false

/-- The command that writes RETRY_COUNT (R32, R54). -/
def writesCount : Instr → Bool
  | .primegen _ _ => true
  | _ => false

/-- The commands that draw from the RNG (R32, R52). -/
def draws : Instr → Bool
  | .mrtest _ => true
  | .primegen _ _ => true
  | _ => false

/-- The errors each command may raise (R301, R302, R304); SQRT4's IllegalCommand is R110's D ≥ 13. -/
def raises : Instr → List CmdError
  | .mov _ _ => []
  | .ldi _ _ => []
  | .mul _ _ _ => [.overflow]
  | .modmul _ _ _ _ => [.invalidArgument]
  | .modpow _ _ _ _ => [.invalidArgument]
  | .modinv _ _ _ => [.invalidArgument, .noInverseExists]
  | .fitw _ _ _ => [.overflow]
  | .mrtest _ => []
  | .primegen _ _ => [.invalidArgument, .generationTimeout]
  | .crt _ _ _ _ _ => [.invalidArgument, .invalidModulus, .overflow]
  | .sqrt4 d _ _ _ => if d.val ≤ 12 then [.invalidModulus, .overflow] else [.illegalCommand]
  | .transform _ _ _ _ => [.invalidArgument, .invalidModulus, .overflow]

/-- The machine is in the state of R350, as the host and the platform see it. -/
structure State.isReset (t : State) : Prop where
  regs : ∀ r : Reg, t.x[r] = 0
  id : readOffset t 0x000 = 0x52414249
  param : readOffset t 0x004 = BitVec.ofNat 32 ((16 <<< 16) ||| (t.cfg.opw / 32))
  ctrl : readOffset t 0x008 = 0
  status : readOffset t 0x00C = 0
  cmd : readOffset t 0x010 = 0
  errcode : readOffset t 0x014 = 0
  res : readOffset t 0x018 = 0
  rounds : readOffset t 0x01C = 12
  retryLimit : readOffset t 0x020 = 0
  retryCount : readOffset t 0x024 = 0
  flight : t.flight = none
  irq : irq t = false

/-- n has a factor in SP (R202 step 1). -/
def hasSmallFactor (n : Nat) : Prop := ∃ s ∈ smallPrimes, s ∣ n

/-- n passes a Miller–Rabin round with base a, in the words of R202 steps 2 and 3: with n − 1 = d·2^s and d odd,
a^d mod n is 1 or some a^(d·2^j) mod n, j < s, is n − 1. -/
def strongPass (n a : Nat) : Prop :=
  ∃ d s, n - 1 = d * 2 ^ s ∧ d % 2 = 1 ∧ (a ^ d % n = 1 ∨ ∃ j, j < s ∧ a ^ (d * 2 ^ j) % n = n - 1)

/-- `ws` are the witnesses IsProbablePrime(n, rounds) consumes to answer true (R202, R203). -/
def acceptsWith (n rounds : Nat) (ws : List Nat) : Prop :=
  (n ∈ smallPrimes ∧ ws = []) ∨
  (2 ≤ n ∧ ¬ hasSmallFactor n ∧ ws.length = rounds ∧ ∀ a ∈ ws, 2 ≤ a ∧ a ≤ n - 2 ∧ strongPass n a)

/-- `ws` are the witnesses IsProbablePrime(n, rounds) consumes to answer false: none on the fast path, else up
to the first that finds n composite (R202, R203). -/
def rejectsWith (n rounds : Nat) (ws : List Nat) : Prop :=
  ((n < 2 ∨ (hasSmallFactor n ∧ n ∉ smallPrimes)) ∧ ws = []) ∨
  (2 ≤ n ∧ ¬ hasSmallFactor n ∧ ∃ pre a, ws = pre ++ [a] ∧ pre.length < rounds ∧
    (∀ b ∈ pre, 2 ≤ b ∧ b ≤ n - 2 ∧ strongPass n b) ∧ 2 ≤ a ∧ a ≤ n - 2 ∧ ¬ strongPass n a)

/-- The draws of a sequence of candidates, each followed by the witnesses of its test (R232). -/
def candidateDraws (blocks : List (Nat × List Nat)) : List Nat := blocks.flatMap (fun b => b.1 :: b.2)

/-- y is 0 or a quadratic residue modulo m (R18, R257). -/
def isSquareMod (y m : Nat) : Prop := ∃ r, r * r % m = y % m

/-- Turns performed in order, stopping at the first stop. -/
def turns : List Turn → State → Host.Outcome State Fault Refusal
  | [], s => .next s
  | t :: ts, s =>
    match takeTurn t s with
    | .next s' => turns ts s'
    | .fault r => .fault r
    | .refused r => .refused r

end Sys2Proof.Machine
end

