-- ==== Sys2Proof/Certificates/Slice0/Obligations.lean ====
section
/-! DEFINITION. The statements for the provers, from the spec's numbered rules. A command in flight is given by
`s.flight = some ⟨p, w⟩`: p is the snapshot its accept took (R7), w its hidden working state. Parameters are
State's own (log entry 1), so each statement holds for every OPW and BASE. -/

open Sys2Proof Sys2Proof.Machine

/-! ## Encoding -/

/-- R101, R102, R104: no bit of an encoding is dropped. -/
def Obligations.DecodeInvertsEncode : Prop :=
  ∀ i : Instr, i.wf = true → decode (encode i) = .ok i

/-- R104, R106: a word spells at most one command, and that command's word is the word itself. -/
def Obligations.EncodeInvertsDecode : Prop :=
  ∀ (w : Word) (i : Instr), decode w = .ok i → encode i = w ∧ i.wf = true

/-- R105: a word spells a row's instruction exactly when (w and mask) = match, and D ≤ 12 for SQRT4; no two
rows overlap. -/
def Obligations.DecodeIsTheMatchMaskTable : Prop :=
  (∀ (w : Word) (m : Mnemonic),
    (∃ i, decode w = .ok i ∧ i.mnemonic = m) ↔ fitsRow m w ∧ (m = .sqrt4 → (dField w).val ≤ 12)) ∧
  ∀ (w : Word) (m m' : Mnemonic), fitsRow m w → fitsRow m' w → m = m'

/-- R110: which words are illegal; that they are accepted; and that they complete with IllegalCommand and no
other effect, no draw among them. -/
def Obligations.IllegalWordsCompleteWithIllegalCommand : Prop :=
  (∀ w : Word, (∃ r, decode w = .error r) ↔
    opField w ∉ [0x01, 0x02, 0x03, 0x10, 0x11, 0x12, 0x13, 0x20, 0x30, 0x40, 0x41, 0x50] ∨
    (∃ m, opField w = opcode m ∧ w &&& ((matchMask m).2 &&& 0x00FFFFFF) ≠ 0) ∨
    (opField w = 0x41 ∧ 13 ≤ (dField w).val)) ∧
  (∃ r, decode 0 = .error r) ∧
  (∀ (w : Word) (s : State), s.busy = false → writeOffset s 0x010 w = accept w s) ∧
  ∀ (s : State) (r : Reject), s.rst = false → s.busy = true → decode s.cmd = .error r →
    engineTurn s = .next (failedWith .illegalCommand s)

/-- R124: the fourteen lines, their words, and what the words decode to. -/
def Obligations.EncodingExamples : Prop :=
  ∀ row ∈ ([("MOV B1, B0", 0x01100000, .mov 1 0),
            ("LDI B0, 7", 0x02000007, .ldi 0 7),
            ("LDI B1, 11", 0x0210000B, .ldi 1 11),
            ("LDI B2, 20", 0x02200014, .ldi 2 20),
            ("MUL B3, B0, B1", 0x03301000, .mul 3 0 1),
            ("MODMUL B5, B2, B2, B3", 0x10522300, .modmul 5 2 2 3),
            ("MODPOW B3, B0, B1, B2", 0x11301200, .modpow 3 0 1 2),
            ("MODINV B2, B0, B1", 0x12200100, .modinv 2 0 1),
            ("FITW B1, B0, 1", 0x13100001, .fitw 1 0 1),
            ("MRTEST B0", 0x20000000, .mrtest 0),
            ("PRIMEGEN B0, 8", 0x30000008, .primegen 0 8),
            ("CRT B4, B0, B1, B2, B3", 0x40401230, .crt 4 0 1 2 3),
            ("SQRT4 B8, B5, B0, B1", 0x41850010, .sqrt4 8 5 0 1),
            ("TRANSFORM B4, B2, B0, B1", 0x50420010, .transform 4 2 0 1)] : List (String × Word × Instr)),
    assemble row.1.toList = .ok row.2.1 ∧ decode row.2.1 = .ok row.2.2

/-- R123: the three pseudo-instructions expand as listed, and the expansions mean what the table says (NMOD
where p·q fits the register, R142). -/
def Obligations.PseudoInstructionsExpand : Prop :=
  (∀ d : Reg, (Pseudo.clr d).expand = .ldi d 0) ∧
  (∀ d a c : Reg, (Pseudo.sqr d a c).expand = .modmul d a a c) ∧
  (∀ d p q : Reg, (Pseudo.nmod d p q).expand = .mul d p q) ∧
  ∀ (s : State) (f : Flight) (d a c : Reg), s.flight = some f →
    exec (Pseudo.clr d).expand s = .next (wroteReg d 0 s) ∧
    (f.snap.x[c] ≠ 0 →
      exec (Pseudo.sqr d a c).expand s = .next (wroteReg d (f.snap.x[a] ^ 2 % f.snap.x[c]) s)) ∧
    (f.snap.x[a] * f.snap.x[c] < 2 ^ s.cfg.opw →
      exec (Pseudo.nmod d a c).expand s = .next (wroteReg d (f.snap.x[a] * f.snap.x[c]) s))

/-- R122: whatever line the assembler takes, the word it emits is a legal command; SQRT4 with d > 12 among the
lines it rejects. -/
def Obligations.AssemblerEmitsNoIllegalWord : Prop :=
  (∀ (line : List Char) (w : Word), assemble line = .ok w → ∃ i, decode w = .ok i ∧ i.wf = true) ∧
  ∀ (line : List Char) (d a c e : Reg), assembleInstr line = .ok (.sqrt4 d a c e) → d.val ≤ 12

/-! ## Steps -/

/-- R17, R33, R34: the engine's turn runs the command whose word CMD holds, whether the agenda is empty or its
oldest turn is the engine's (the agenda is the model's, log entry 3); an idle engine takes no step. R30, R52: a step
performs the oldest turn of the agenda, whosever it is; an RNG delivery appends its value to the delivered ones (the
model's list, log entry 2) and changes nothing else. -/
def Obligations.StepRunsTheDecodedCommand : Prop :=
  (∀ (s : State) (i : Instr), s.rst = false → s.busy = true → decode s.cmd = .ok i →
    (s.agenda = [] → step s = exec i s) ∧
    (∀ rest, s.agenda = .engine :: rest → step s = exec i { s with agenda := rest })) ∧
  (∀ s : State, s.busy = false →
    (s.agenda = [] → step s = .next s) ∧
    (∀ rest, s.agenda = .engine :: rest → step s = .next { s with agenda := rest })) ∧
  (∀ (s : State) (turn : Turn) (rest : List Turn), s.agenda = turn :: rest →
    step s = takeTurn turn { s with agenda := rest }) ∧
  (∀ (s : State) (a : Access), takeTurn (.host a) s = hostAccess a s) ∧
  (∀ s : State, takeTurn .engine s = engineTurn s) ∧
  (∀ (s : State) (v : Nat), takeTurn (.rng v) s = .next { s with rng := s.rng ++ [v] }) ∧
  ∀ (s : State) (level : Bool), takeTurn (.rst level) s = .next (driveRst level s)

/-- R44, R48: a host's CMD write to an idle engine, followed by the engine's turn, executes the command. -/
def Obligations.IssuedCommandIsExecuted : Prop :=
  ∀ (s : State) (w : Word) (i : Instr), s.cfg.wf → s.rst = false → s.busy = false → decode w = .ok i →
    turns [wrTurn s.cfg 0x010 w, .engine] s = exec i { accept w s with resp := some .written }

/-- R301, R319: no command ends in a stop; each answers a next state from every state. -/
def Obligations.EveryCommandAnswersANextState : Prop :=
  ∀ (i : Instr) (s : State), ∃ t, exec i s = .next t

/-- R70, R318, R352: the machine stops only where a host access leaves the window or meets an asserted rst (the
model's own stops, log entries 8 and 9). -/
def Obligations.StepStopsOnlyOnAHostAccess : Prop :=
  (∀ (s : State) (r : Fault), step s = .fault r →
    s.rst = false ∧ ∃ rest addr, r = .outsideWindow addr ∧
      (addr < s.cfg.base ∨ s.cfg.base + 0x8000 ≤ addr) ∧
      ((∃ size, s.agenda = .host (.read addr size) :: rest) ∨
       (∃ size lanes, s.agenda = .host (.write addr size lanes) :: rest))) ∧
  (∀ (s : State) (r : Refusal), step s = .refused r →
    r = .accessDuringReset ∧ s.rst = true ∧ ∃ a rest, s.agenda = .host a :: rest) ∧
  ∀ (s : State) (addr size : Nat) (lanes : Lanes), s.rst = false →
    (addr < s.cfg.base ∨ s.cfg.base + 0x8000 ≤ addr) →
    hostAccess (.read addr size) s = .fault (.outsideWindow addr) ∧
    hostAccess (.write addr size lanes) s = .fault (.outsideWindow addr)

/-! ## Reset -/

/-- R350: a hardware reset and a soft reset both leave every piece of state at the listed value, for every
legal parameter. -/
def Obligations.ResetLeavesTheResetState : Prop :=
  (∀ s : State, s.cfg.wf → (driveRst true s).isReset) ∧
  (∀ (s : State) (v : Word), s.cfg.wf → v.getLsbD 1 = true → (writeOffset s 0x008 v).isReset) ∧
  State.reset.isReset

/-- R351: a CTRL write with SRST = 1 is the reset in the same step, command or no command; the parameters and
the RNG's remaining deliveries are untouched (the model's lists, log entries 2 and 3), and the write's other bits
are ignored. -/
def Obligations.SoftResetAbandonsTheCommand : Prop :=
  ∀ (s : State) (v : Word), s.cfg.wf → s.rst = false → v.getLsbD 1 = true →
    ∃ t, hostAccess (.write (s.cfg.base + 0x008) 4 (toLanes v)) s = .next t ∧ t.isReset ∧
      t.cfg = s.cfg ∧ t.rng = s.rng ∧ t.agenda = s.agenda ∧ t.rst = false ∧ t.resp = some .written

/-- R352: asserting rst gives the reset state, the engine takes no step while it is asserted, a host access then
is refused (the model's treatment of I4, log entry 9), and on release the engine is idle in the reset state. -/
def Obligations.RstInputHoldsTheEngine : Prop :=
  (∀ s : State, s.cfg.wf → (driveRst true s).isReset ∧ (driveRst true s).rst = true) ∧
  (∀ s : State, s.rst = true → engineTurn s = .next s ∧
    ∀ a, hostAccess a s = .refused .accessDuringReset) ∧
  ∀ s : State, s.Inv → s.rst = true →
    ∃ t, takeTurn (.rst false) s = .next t ∧ t.isReset ∧ t.rst = false ∧ engineTurn t = .next t

/-- The invariant holds at reset. -/
def Obligations.ResetSatisfiesTheInvariant : Prop := State.reset.Inv

/-- Every step from every state that meets the invariant gives a state that meets it: registers stay below
2^OPW (R31), BUSY and DONE never hold together (R45), ERR goes with ERRCODE (R46), the snapshot stays what the
registers hold (R363), the working state fits the command (R56), rst holds the reset state (R352). -/
def Obligations.StepKeepsTheInvariant : Prop :=
  ∀ s t : State, s.Inv → step s = .next t → t.Inv

/-! ## The register window -/

/-- R76: a read has no side effect, so it may be repeated and gives the same answer; R70, R73: the read of any
aligned word of the window answers lanes of which lane j is bits [8j+7:8j] of the word. -/
def Obligations.ReadsHaveNoSideEffect : Prop :=
  (∀ (s t : State) (addr size : Nat), hostAccess (.read addr size) s = .next t →
    (∃ r, t = { s with resp := some r }) ∧ hostAccess (.read addr size) t = .next t) ∧
  ∀ (s : State) (off : Nat), s.cfg.wf → s.rst = false → off < 0x8000 → off % 4 = 0 →
    ∃ lanes : Lanes, hostAccess (.read (s.cfg.base + off) 4) s = .next { s with resp := some (.data lanes) } ∧
      ∀ (j : Fin 4) (i : Nat), i < 8 → lanes[j].getLsbD i = (readOffset s off).getLsbD (8 * j.val + i)

/-- R72, R318: an access of another size or alignment is a bus error with no effect on the engine. -/
def Obligations.UnadmittedAccessesAreBusErrors : Prop :=
  ∀ (s : State) (addr size : Nat) (lanes : Lanes), s.rst = false →
    s.cfg.base ≤ addr → addr < s.cfg.base + 0x8000 → (size ≠ 4 ∨ addr % 4 ≠ 0) →
    hostAccess (.read addr size) s = .next { s with resp := some .busError } ∧
    hostAccess (.write addr size lanes) s = .next { s with resp := some .busError }

/-- R44: a CMD write accepts while BUSY = 0, an illegal word too, which later completes with IllegalCommand;
while BUSY = 1 it changes nothing but COLL. -/
def Obligations.CmdWriteAcceptsOrCollides : Prop :=
  ∀ (s : State) (w : Word), s.cfg.wf → s.rst = false →
    (s.busy = false → ∃ t, hostAccess (.write (s.cfg.base + 0x010) 4 (toLanes w)) s = .next t ∧
      t = { s with cmd := w, done := false, err := false, errcode := none, resp := some .written,
                   flight := some ⟨⟨s.x, s.rounds, s.retryLimit⟩, .start⟩ } ∧
      (∀ r, decode w = .error r → engineTurn t = .next (failedWith .illegalCommand t))) ∧
    (s.busy = true → hostAccess (.write (s.cfg.base + 0x010) 4 (toLanes w)) s =
      .next { s with coll := true, resp := some .written })

/-- R45: the STATUS fields as read, and what a STATUS write clears, command or no command; R48, R49, R50, R54: what
CMD, ERRCODE, RES and RETRY_COUNT read, with the number of each error (R301). -/
def Obligations.StatusFieldsAndClears : Prop :=
  ∀ (s : State) (v : Word),
    (readOffset s 0x00C).getLsbD 0 = s.busy ∧ (readOffset s 0x00C).getLsbD 1 = s.done ∧
    (readOffset s 0x00C).getLsbD 2 = s.err ∧ (readOffset s 0x00C).getLsbD 3 = s.coll ∧
    (∀ j, 4 ≤ j → (readOffset s 0x00C).getLsbD j = false) ∧
    readOffset s 0x010 = s.cmd ∧ readOffset s 0x018 = s.res ∧ readOffset s 0x024 = s.retryCount ∧
    (s.errcode = none → readOffset s 0x014 = 0) ∧
    (∀ row ∈ ([(.invalidArgument, 1), (.invalidModulus, 2), (.noInverseExists, 3), (.overflow, 4),
        (.generationTimeout, 5), (.illegalCommand, 6)] : List (CmdError × Word)),
      s.errcode = some row.1 → readOffset s 0x014 = row.2) ∧
    ∃ t, writeOffset s 0x00C v = t ∧ t = { s with done := t.done, coll := t.coll } ∧
      (t.done = true ↔ s.done = true ∧ v.getLsbD 1 = false) ∧
      (t.coll = true ↔ s.coll = true ∧ v.getLsbD 3 = false)

/-- R43: the CTRL fields as read, and a CTRL write with and without SRST. -/
def Obligations.CtrlRegisterFields : Prop :=
  ∀ (s : State) (v : Word),
    (readOffset s 0x008).getLsbD 0 = s.irqEn ∧ (∀ j, 1 ≤ j → (readOffset s 0x008).getLsbD j = false) ∧
    (v.getLsbD 1 = false → writeOffset s 0x008 v = { s with irqEn := v.getLsbD 0 }) ∧
    (v.getLsbD 1 = true → writeOffset s 0x008 v = engineReset s)

/-- R41: a limb read gives bits [32k+31:32k]; an idle write replaces them and no other bit; a busy write is
dropped with COLL; a running command has not changed a register before it completes; words above the
register's width read 0 and keep every register. -/
def Obligations.OperandWindowLimbs : Prop :=
  ∀ (s : State) (i : Reg) (k : Nat) (v : Word), s.cfg.wf → k < 256 →
    (k < s.cfg.opw / 32 →
      (∀ j, j < 32 → (readOffset s (0x1000 + 0x400 * i.val + 4 * k)).getLsbD j = s.x[i].testBit (32 * k + j)) ∧
      (s.busy = false → ∃ y, writeOffset s (0x1000 + 0x400 * i.val + 4 * k) v = { s with x := s.x.set i y } ∧
        ∀ j, y.testBit j =
          if 32 * k ≤ j ∧ j < 32 * k + 32 then v.getLsbD (j - 32 * k) else s.x[i].testBit j) ∧
      (s.busy = true → writeOffset s (0x1000 + 0x400 * i.val + 4 * k) v = { s with coll := true })) ∧
    (s.cfg.opw / 32 ≤ k →
      readOffset s (0x1000 + 0x400 * i.val + 4 * k) = 0 ∧
      (writeOffset s (0x1000 + 0x400 * i.val + 4 * k) v).x = s.x ∧
      (s.busy = false → writeOffset s (0x1000 + 0x400 * i.val + 4 * k) v = s)) ∧
    ∀ (c : Instr) (t : State), exec c s = .next t → t.busy = true → t.x = s.x

/-- R84, R73: writing all OPW/32 limbs of v loads x[i] with v, and the limbs read back sum to it; on the bus the
lane of byte address 4k + j of a limb read carries bits [32k+8j+7 : 32k+8j] of v, and a write of lanes puts lane j
into bits [8j+7:8j] of the word. -/
def Obligations.LoadedOperandReadsBack : Prop :=
  ∀ (s : State) (i : Reg) (v : Nat), s.cfg.wf → s.rst = false → s.busy = false →
    s.x[i] < 2 ^ s.cfg.opw → v < 2 ^ s.cfg.opw →
    ∃ t, turns (setTurns s.cfg i v) s = .next t ∧
      t = { s with x := s.x.set i v, resp := some .written } ∧
      v = ∑ k ∈ Finset.range (s.cfg.opw / 32),
        (readOffset t (0x1000 + 0x400 * i.val + 4 * k)).toNat * 2 ^ (32 * k) ∧
      (∀ k, k < s.cfg.opw / 32 →
        ∃ lanes : Lanes, hostAccess (.read (s.cfg.base + 0x1000 + 0x400 * i.val + 4 * k) 4) t =
            .next { t with resp := some (.data lanes) } ∧
          ∀ j : Fin 4, lanes[j].toNat = v / 2 ^ (32 * k + 8 * j.val) % 2 ^ 8) ∧
      ∀ (off : Nat) (lanes : Lanes), off < 0x8000 → off % 4 = 0 →
        ∃ w : Word, w.toNat = ∑ j : Fin 4, lanes[j].toNat * 2 ^ (8 * j.val) ∧
          hostAccess (.write (s.cfg.base + off) 4 lanes) s =
            .next { writeOffset s off w with resp := some .written }

/-- R42: ID and PARAM are hardwired, field by field, and writes to them are ignored. -/
def Obligations.IdAndParamAreHardwired : Prop :=
  (∀ (s : State) (v : Word), s.cfg.wf →
    readOffset s 0x000 = 0x52414249 ∧
    readOffset s 0x004 = BitVec.ofNat 32 ((16 <<< 16) ||| (s.cfg.opw / 32)) ∧
    field (readOffset s 0x004) 0 16 = s.cfg.opw / 32 ∧ field (readOffset s 0x004) 16 8 = 16 ∧
    field (readOffset s 0x004) 24 8 = 0 ∧
    writeOffset s 0x000 v = s ∧ writeOffset s 0x004 v = s) ∧
  ∀ s : State, s.cfg.opw = 2048 → readOffset s 0x004 = 0x00100040

/-- R40, R76, R77, R361: writes to read-only and reserved words are ignored, command or no command, and
reserved words read 0; while BUSY = 1 a write to CMD, ROUNDS, RETRY_LIMIT or a limb changes only COLL. -/
def Obligations.IgnoredAndDroppedWrites : Prop :=
  (∀ (s : State) (off : Nat) (v : Word), off ∈ [0x000, 0x004, 0x014, 0x018, 0x024] → writeOffset s off v = s) ∧
  (∀ (s : State) (off : Nat) (v : Word), off % 4 = 0 →
    (0x028 ≤ off ∧ off ≤ 0x0FFC ∨ 0x5000 ≤ off ∧ off ≤ 0x7FFC) →
    readOffset s off = 0 ∧ writeOffset s off v = s) ∧
  ∀ (s : State) (off : Nat) (v : Word), s.busy = true →
    (off ∈ [0x010, 0x01C, 0x020] ∨
      ∃ (i : Reg) (k : Nat), k < s.cfg.opw / 32 ∧ k < 256 ∧ off = 0x1000 + 0x400 * i.val + 4 * k) →
    writeOffset s off v = { s with coll := true }

/-- R55, R306: irq is DONE and IRQ_EN, low after reset; acknowledging DONE, an accept, and clearing IRQ_EN each
lower it. -/
def Obligations.IrqIsDoneAndEnable : Prop :=
  (∀ s : State, irq s = true ↔ s.done = true ∧ s.irqEn = true) ∧ irq State.reset = false ∧
  (∀ (s : State) (v : Word), v.getLsbD 1 = true → irq (writeOffset s 0x00C v) = false) ∧
  (∀ (s : State) (w : Word), irq (accept w s) = false) ∧
  ∀ (s : State) (v : Word), v.getLsbD 1 = false → v.getLsbD 0 = false → irq (writeOffset s 0x008 v) = false

/-- R51, R53: ROUNDS keeps 16 bits and reads the rest as 0, RETRY_LIMIT keeps 32; each is written while idle
and read back. -/
def Obligations.RoundsAndRetryLimitAreWritable : Prop :=
  ∀ (s : State) (v : Word), s.busy = false →
    (∃ t, writeOffset s 0x01C v = t ∧ t = { s with rounds := t.rounds } ∧
      (readOffset t 0x01C).toNat = v.toNat % 2 ^ 16) ∧
    (∃ t, writeOffset s 0x020 v = t ∧ t = { s with retryLimit := v } ∧ readOffset t 0x020 = v)

/-! ## All commands -/

/-- R32, R47, R50, R54: what each command leaves unchanged, in the registers and as the host reads the window. -/
def Obligations.CommandFrames : Prop :=
  ∀ (i : Instr) (s t : State), exec i s = .next t →
    Frame (destinations i) (writesRes i) (writesCount i) (draws i) s t ∧
    ∀ off, (∀ r ∈ destinations i, ∀ k, locate s.cfg off ≠ .limb r k) →
      locate s.cfg off ≠ .status → locate s.cfg off ≠ .errcode →
      (writesRes i = true → locate s.cfg off ≠ .res) →
      (writesCount i = true → locate s.cfg off ≠ .retryCount) →
      readOffset t off = readOffset s off

/-- R46, R300, R7: a command in flight either is still in flight with nothing but its draws and working state
moved on, its snapshot too as it was (that a wait leaves no delivered value is the model's list, log entry 2); or is
complete with DONE = 1: by one whole commit of pending writes, with ERR and ERRCODE as the accept set them; or with an
error and every result as it was. -/
def Obligations.CompletionIsAtomic : Prop :=
  ∀ (i : Instr) (s t : State), s.busy = true → exec i s = .next t →
    (∃ f w, s.flight = some f ∧ t = { s with rng := [], flight := some { f with work := w } }) ∨
    (∃ c, t = succeed c { s with rng := t.rng } ∧
      t.busy = false ∧ t.done = true ∧ t.err = s.err ∧ t.errcode = s.errcode) ∨
    ∃ e, t = { failedWith e s with rng := t.rng }

/-- R301, R302, R304: a command raises only the errors its rule lists; MOV, LDI and MRTEST raise none. -/
def Obligations.ErrorsEachCommandMayRaise : Prop :=
  (∀ (i : Instr) (s t : State) (e : CmdError), s.errcode = none → exec i s = .next t →
    t.errcode = some e → e ∈ raises i) ∧
  ∀ (i : Instr) (s t : State), i.mnemonic ∈ [.mov, .ldi, .mrtest] → s.err = false →
    exec i s = .next t → t.err = false

/-- R47: what a command does depends only on its snapshot and its draws: two states that agree on the parameters,
the command in flight and the delivered values complete with one and the same commit or error. -/
def Obligations.CommandsDependOnSnapshotAndDraws : Prop :=
  ∀ (i : Instr) (s s' t : State), s'.cfg = s.cfg → s'.flight = s.flight → s'.rng = s.rng →
    exec i s = .next t → ∃ t', exec i s' = .next t' ∧
      ((s.flight = none ∧ t = s ∧ t' = s') ∨
       (∃ f, t = { s with rng := [], flight := some f } ∧ t' = { s' with rng := [], flight := some f }) ∨
       ∃ r rest, t = complete r { s with rng := rest } ∧ t' = complete r { s' with rng := rest })

/-- R370 (D36): a command that draws nothing completes at the engine's turn. -/
def Obligations.NonDrawingCommandsComplete : Prop :=
  ∀ (i : Instr) (s : State), draws i = false → s.busy = true →
    ∃ t, exec i s = .next t ∧ t.busy = false ∧ t.done = true ∧ t.rng = s.rng

/-! ## Data movement and multiply -/

/-- R140: MOV's words, and its effect; with d = a on the accept's snapshot the register stays as it was. -/
def Obligations.MovCopiesARegister : Prop :=
  (∀ (w : Word) (d a : Reg), decode w = .ok (.mov d a) ↔
    opField w = 0x01 ∧ dField w = d ∧ aField w = a ∧ field w 0 16 = 0) ∧
  ∀ (s : State) (p : Snapshot) (k : Work) (d a : Reg), s.flight = some ⟨p, k⟩ →
    exec (.mov d a) s = .next { s with x := s.x.set d p.x[a], flight := none, done := true } ∧
    (p = takeSnapshot s → exec (.mov a a) s = .next { s with flight := none, done := true })

/-- R141: LDI's words, and its effect. -/
def Obligations.LdiLoadsTheImmediate : Prop :=
  (∀ (w : Word) (d : Reg) (imm : Imm), decode w = .ok (.ldi d imm) ↔
    opField w = 0x02 ∧ dField w = d ∧ field w 16 4 = 0 ∧ field w 0 16 = imm.toNat) ∧
  ∀ (s : State) (p : Snapshot) (k : Work) (d : Reg) (imm : Imm), s.flight = some ⟨p, k⟩ →
    exec (.ldi d imm) s = .next { s with x := s.x.set d imm.toNat, flight := none, done := true }

/-- R142: MUL's words, its exact product, and Overflow. -/
def Obligations.MulIsExactOrOverflows : Prop :=
  (∀ (w : Word) (d a b : Reg), decode w = .ok (.mul d a b) ↔
    opField w = 0x03 ∧ dField w = d ∧ aField w = a ∧ bField w = b ∧ field w 0 12 = 0) ∧
  ∀ (s : State) (p : Snapshot) (k : Work) (d a b : Reg), s.flight = some ⟨p, k⟩ →
    (p.x[a] * p.x[b] < 2 ^ s.cfg.opw →
      exec (.mul d a b) s = .next { s with x := s.x.set d (p.x[a] * p.x[b]), flight := none, done := true }) ∧
    (2 ^ s.cfg.opw ≤ p.x[a] * p.x[b] → exec (.mul d a b) s = .next (failedWith .overflow s))

/-! ## The modular engine -/

/-- R160: MODMUL's words, its residue, and InvalidArgument for modulus 0. -/
def Obligations.ModmulReducesTheProduct : Prop :=
  (∀ (w : Word) (d a b c : Reg), decode w = .ok (.modmul d a b c) ↔
    opField w = 0x10 ∧ dField w = d ∧ aField w = a ∧ bField w = b ∧ cField w = c ∧ field w 0 8 = 0) ∧
  ∀ (s : State) (p : Snapshot) (k : Work) (d a b c : Reg), s.flight = some ⟨p, k⟩ →
    (0 < p.x[c] → exec (.modmul d a b c) s =
      .next { s with x := s.x.set d (p.x[a] * p.x[b] % p.x[c]), flight := none, done := true }) ∧
    (p.x[c] = 0 → exec (.modmul d a b c) s = .next (failedWith .invalidArgument s))

/-- R162: MODPOW's words; its result is pow(base, e) mod m, whatever the loop; InvalidArgument for modulus 0. -/
def Obligations.ModpowIsThePowerResidue : Prop :=
  (∀ (w : Word) (d a b c : Reg), decode w = .ok (.modpow d a b c) ↔
    opField w = 0x11 ∧ dField w = d ∧ aField w = a ∧ bField w = b ∧ cField w = c ∧ field w 0 8 = 0) ∧
  ∀ (s : State) (p : Snapshot) (k : Work) (d a b c : Reg), s.flight = some ⟨p, k⟩ →
    (0 < p.x[c] → exec (.modpow d a b c) s =
      .next { s with x := s.x.set d (p.x[a] ^ p.x[b] % p.x[c]), flight := none, done := true }) ∧
    (p.x[c] = 0 → exec (.modpow d a b c) s = .next (failedWith .invalidArgument s))

/-- R165, R9: MODINV's words; its result is the unique inverse in [0, m); InvalidArgument for modulus 0, then
NoInverseExists when gcd(a, m) ≠ 1. -/
def Obligations.ModinvIsTheUniqueInverse : Prop :=
  (∀ (w : Word) (d a c : Reg), decode w = .ok (.modinv d a c) ↔
    opField w = 0x12 ∧ dField w = d ∧ aField w = a ∧ cField w = c ∧ field w 12 4 = 0 ∧ field w 0 8 = 0) ∧
  ∀ (s : State) (p : Snapshot) (k : Work) (d a c : Reg), s.flight = some ⟨p, k⟩ →
    (0 < p.x[c] → Nat.gcd p.x[a] p.x[c] = 1 →
      ∃ y, y < p.x[c] ∧ p.x[a] * y % p.x[c] = 1 % p.x[c] ∧
        (∀ z, z < p.x[c] → p.x[a] * z % p.x[c] = 1 % p.x[c] → z = y) ∧
        exec (.modinv d a c) s = .next { s with x := s.x.set d y, flight := none, done := true }) ∧
    (p.x[c] = 0 → exec (.modinv d a c) s = .next (failedWith .invalidArgument s)) ∧
    (0 < p.x[c] → Nat.gcd p.x[a] p.x[c] ≠ 1 →
      exec (.modinv d a c) s = .next (failedWith .noInverseExists s))

/-- R168, R169: FITW's words; it copies a value that fits w bytes, whose FWB then never fails and reads back;
Overflow otherwise, never a truncation. -/
def Obligations.FitwCopiesWhatFits : Prop :=
  (∀ (w : Word) (d a : Reg) (width : Imm), decode w = .ok (.fitw d a width) ↔
    opField w = 0x13 ∧ dField w = d ∧ aField w = a ∧ field w 0 16 = width.toNat) ∧
  ∀ (s : State) (p : Snapshot) (k : Work) (d a : Reg) (width : Imm), s.flight = some ⟨p, k⟩ →
    (p.x[a] < 2 ^ (8 * width.toNat) →
      exec (.fitw d a width) s = .next { s with x := s.x.set d p.x[a], flight := none, done := true } ∧
      ∃ bytes, fwb p.x[a] width.toNat = .ok bytes ∧ fwd bytes = p.x[a]) ∧
    (2 ^ (8 * width.toNat) ≤ p.x[a] → exec (.fitw d a width) s = .next (failedWith .overflow s))

/-! ## Primality and prime generation -/

/-- R200–R203: MRTEST answers every n: RES = 1 with the witnesses an accepting test consumes, RES = 0 with those
a rejecting test consumes; the fast path consumes none, and no later draw is taken. -/
def Obligations.MrtestAnswersWithRes : Prop :=
  (∀ (w : Word) (a : Reg), decode w = .ok (.mrtest a) ↔
    opField w = 0x20 ∧ aField w = a ∧ field w 20 4 = 0 ∧ field w 0 16 = 0) ∧
  ∀ (s : State) (p : Snapshot) (a : Reg) (ws rest : List Nat), s.accepted p → s.rng = ws ++ rest →
    (acceptsWith p.x[a] p.rounds.toNat ws → exec (.mrtest a) s =
      .next { s with res := 1, rng := rest, flight := none, done := true }) ∧
    (rejectsWith p.x[a] p.rounds.toNat ws → exec (.mrtest a) s =
      .next { s with res := 0, rng := rest, flight := none, done := true })

/-- R204: over all draw sequences the result for a prime is true. -/
def Obligations.MrtestNeverRejectsAPrime : Prop :=
  ∀ (s t : State) (p : Snapshot) (a : Reg), s.accepted p → Nat.Prime p.x[a] →
    exec (.mrtest a) s = .next t → t.busy = false → t.res = 1

/-- R52: a command waits only when it draws; until a value in range is delivered, further engine turns change
nothing. That a wait leaves no delivered value is the model's list (log entry 2). -/
def Obligations.WaitingChangesNothing : Prop :=
  ∀ (i : Instr) (s t : State), exec i s = .next t → t.busy = true →
    draws i = true ∧ t.rng = [] ∧ exec i t = .next t

/-- R17, R52, R56: no intermediate state shows: a command that waited and then got more deliveries ends as it
would have ended had they all been delivered before it started. -/
def Obligations.ResumingIsTransparent : Prop :=
  ∀ (i : Instr) (s t : State) (more : List Nat), exec i s = .next t → t.busy = true →
    exec i { t with rng := more } = exec i { s with rng := s.rng ++ more }

/-- R230–R233: PRIMEGEN's words; InvalidArgument before any draw; candidates r or 2^(bits−1) or 3 tested in draw
order, each followed by its witnesses; GenerationTimeout after RETRY_LIMIT rejected ones; on the first accepted
one x[d] and RETRY_COUNT. -/
def Obligations.PrimegenSearchesInDrawOrder : Prop :=
  (∀ (w : Word) (d : Reg) (bits : Imm), decode w = .ok (.primegen d bits) ↔
    opField w = 0x30 ∧ dField w = d ∧ field w 16 4 = 0 ∧ field w 0 16 = bits.toNat) ∧
  (∀ (s : State) (p : Snapshot) (k : Work) (d : Reg) (bits : Imm), s.flight = some ⟨p, k⟩ →
    (bits.toNat < 2 ∨ s.cfg.opw < bits.toNat) →
    exec (.primegen d bits) s = .next (failedWith .invalidArgument s)) ∧
  ∀ (s : State) (p : Snapshot) (d : Reg) (bits : Imm) (blocks : List (Nat × List Nat)) (rest : List Nat),
    s.accepted p → 2 ≤ bits.toNat → bits.toNat ≤ s.cfg.opw →
    (∀ b ∈ blocks, b.1 < 2 ^ bits.toNat ∧
      rejectsWith (b.1 ||| 2 ^ (bits.toNat - 1) ||| 3) p.rounds.toNat b.2) →
    (p.retryLimit ≠ 0 → blocks.length = p.retryLimit.toNat → s.rng = candidateDraws blocks ++ rest →
      exec (.primegen d bits) s = .next { failedWith .generationTimeout s with rng := rest }) ∧
    (∀ r ws, (p.retryLimit ≠ 0 → blocks.length < p.retryLimit.toNat) → r < 2 ^ bits.toNat →
      acceptsWith (r ||| 2 ^ (bits.toNat - 1) ||| 3) p.rounds.toNat ws →
      s.rng = candidateDraws blocks ++ r :: ws ++ rest →
      exec (.primegen d bits) s =
        .next { s with x := s.x.set d (r ||| 2 ^ (bits.toNat - 1) ||| 3), flight := none, done := true,
                       retryCount := BitVec.ofNat 32 (blocks.length + 1), rng := rest })

/-- R234: a successful result has exactly `bits` bits, is odd and ≡ 3 (mod 4), and IsProbablePrime answered true
on the draws consumed. -/
def Obligations.PrimegenResultProperties : Prop :=
  ∀ (s t : State) (p : Snapshot) (d : Reg) (bits : Imm), s.accepted p → s.err = false →
    exec (.primegen d bits) s = .next t → t.busy = false → t.err = false →
    bitlen t.x[d] = bits.toNat ∧ t.x[d] % 2 = 1 ∧ t.x[d] % 4 = 3 ∧
    ∃ pre ws, s.rng = pre ++ ws ++ t.rng ∧
      isProbablePrime t.x[d] p.rounds.toNat (ws ++ t.rng) = .answer true t.rng

/-- R235, R204: a draw sequence that ever yields a prime candidate ends the command, whatever its witnesses: after
any rejected candidates within the cap, a prime one with enough witnesses in range completes it. -/
def Obligations.PrimegenTakesAPrimeCandidate : Prop :=
  ∀ (s : State) (p : Snapshot) (d : Reg) (bits : Imm) (blocks : List (Nat × List Nat)) (r : Nat) (ws : List Nat),
    s.accepted p → 2 ≤ bits.toNat → bits.toNat ≤ s.cfg.opw →
    (∀ b ∈ blocks, b.1 < 2 ^ bits.toNat ∧
      rejectsWith (b.1 ||| 2 ^ (bits.toNat - 1) ||| 3) p.rounds.toNat b.2) →
    (p.retryLimit ≠ 0 → blocks.length < p.retryLimit.toNat) → r < 2 ^ bits.toNat →
    Nat.Prime (r ||| 2 ^ (bits.toNat - 1) ||| 3) → s.rng = candidateDraws blocks ++ r :: ws →
    ((r ||| 2 ^ (bits.toNat - 1) ||| 3) ∈ smallPrimes ∨ (p.rounds.toNat ≤ ws.length ∧
      ∀ a ∈ ws, 2 ≤ a ∧ a ≤ (r ||| 2 ^ (bits.toNat - 1) ||| 3) - 2)) →
    ∃ t, exec (.primegen d bits) s = .next t ∧ t.busy = false ∧ t.err = s.err ∧
      t.x[d] = (r ||| 2 ^ (bits.toNat - 1) ||| 3) ∧ t.retryCount = BitVec.ofNat 32 (blocks.length + 1)

/-- R235: with a cap, PRIMEGEN completes once every draw it can ask for has been delivered: L·(rounds + 1) values,
each in range of a candidate and of every candidate's witnesses. -/
def Obligations.CappedPrimegenCompletes : Prop :=
  ∀ (s : State) (p : Snapshot) (d : Reg) (bits : Imm), s.accepted p → p.retryLimit ≠ 0 →
    (∀ v ∈ s.rng, v < 2 ^ (bits.toNat - 1) ∧ (3 ≤ bits.toNat → 2 ≤ v ∧ v + 2 ≤ 2 ^ (bits.toNat - 1))) →
    p.retryLimit.toNat * (p.rounds.toNat + 1) ≤ s.rng.length →
    ∃ t, exec (.primegen d bits) s = .next t ∧ t.busy = false ∧ t.done = true

/-! ## Reconstruction and roots -/

/-- R250, R252: CRT's words, its errors in order, and its result: the unique value in [0, p·q) with the two
residues, the same number as the formula over CrtBasis. -/
def Obligations.CrtReconstructs : Prop :=
  (∀ (w : Word) (d a b c e : Reg), decode w = .ok (.crt d a b c e) ↔
    opField w = 0x40 ∧ dField w = d ∧ aField w = a ∧ bField w = b ∧ cField w = c ∧ eField w = e ∧
      field w 0 4 = 0) ∧
  ∀ (s : State) (p : Snapshot) (k : Work) (d a b c e : Reg), s.flight = some ⟨p, k⟩ →
    ((p.x[c] = 0 ∨ p.x[e] = 0) → exec (.crt d a b c e) s = .next (failedWith .invalidArgument s)) ∧
    (0 < p.x[c] → 0 < p.x[e] → Nat.gcd p.x[c] p.x[e] ≠ 1 →
      exec (.crt d a b c e) s = .next (failedWith .invalidModulus s)) ∧
    (0 < p.x[c] → 0 < p.x[e] → Nat.gcd p.x[c] p.x[e] = 1 → 2 ^ s.cfg.opw ≤ p.x[c] * p.x[e] →
      exec (.crt d a b c e) s = .next (failedWith .overflow s)) ∧
    (0 < p.x[c] → 0 < p.x[e] → Nat.gcd p.x[c] p.x[e] = 1 → p.x[c] * p.x[e] < 2 ^ s.cfg.opw →
      ∃ r, r < p.x[c] * p.x[e] ∧ r % p.x[c] = p.x[a] % p.x[c] ∧ r % p.x[e] = p.x[b] % p.x[e] ∧
        (∀ r', r' < p.x[c] * p.x[e] → r' % p.x[c] = p.x[a] % p.x[c] → r' % p.x[e] = p.x[b] % p.x[e] →
          r' = r) ∧
        r = (p.x[a] * (crtBasis p.x[c] p.x[e]).1 + p.x[b] * (crtBasis p.x[c] p.x[e]).2) %
          (p.x[c] * p.x[e]) ∧
        exec (.crt d a b c e) s = .next { s with x := s.x.set d r, flight := none, done := true })

/-- R251: CrtBasis is the unique pair in [0, n) with the four residues, computed by the modular inverses. -/
def Obligations.CrtBasisIsUnique : Prop :=
  ∀ p q : Nat, 0 < p → 0 < q → Nat.gcd p q = 1 →
    crtBasis p q = (q * inv (q % p) p, p * inv (p % q) q) ∧
    (∀ a1, a1 = (crtBasis p q).1 ↔ a1 < p * q ∧ a1 % p = 1 % p ∧ a1 % q = 0) ∧
    (∀ a2, a2 = (crtBasis p q).2 ↔ a2 < p * q ∧ a2 % p = 0 ∧ a2 % q = 1 % q) ∧
    (p = 1 → (crtBasis p q).1 = 0) ∧ (q = 1 → (crtBasis p q).2 = 0)

/-- R253, R254: SQRT4's words, its errors in order, IllegalCommand for D ≥ 13, and its four results in x[d]..x[d+3]:
r1 and r3 the reconstructions of (±mp, mq), r2 and r4 their negations mod n. -/
def Obligations.Sqrt4ComputesTheRoots : Prop :=
  (∀ (w : Word) (d a c e : Reg), decode w = .ok (.sqrt4 d a c e) ↔
    opField w = 0x41 ∧ dField w = d ∧ aField w = a ∧ cField w = c ∧ eField w = e ∧
      field w 12 4 = 0 ∧ field w 0 4 = 0 ∧ d.val ≤ 12) ∧
  ∀ (s : State) (f : Snapshot) (k : Work) (d a c e : Reg) (p q n : Nat), s.flight = some ⟨f, k⟩ →
    p = f.x[c] → q = f.x[e] → n = p * q →
    (12 < d.val → exec (.sqrt4 d a c e) s = .next (failedWith .illegalCommand s)) ∧
    (d.val ≤ 12 → (p % 4 ≠ 3 ∨ q % 4 ≠ 3 ∨ p = q ∨ Nat.gcd p q ≠ 1) →
      exec (.sqrt4 d a c e) s = .next (failedWith .invalidModulus s)) ∧
    (d.val ≤ 12 → p % 4 = 3 → q % 4 = 3 → p ≠ q → Nat.gcd p q = 1 → 2 ^ s.cfg.opw ≤ n →
      exec (.sqrt4 d a c e) s = .next (failedWith .overflow s)) ∧
    (d.val ≤ 12 → p % 4 = 3 → q % 4 = 3 → p ≠ q → Nat.gcd p q = 1 → n < 2 ^ s.cfg.opw →
      ∃ r1 r3, r1 < n ∧ r3 < n ∧
        r1 % p = f.x[a] ^ ((p + 1) / 4) % p ∧ r1 % q = f.x[a] ^ ((q + 1) / 4) % q ∧
        r3 % p = (p - f.x[a] ^ ((p + 1) / 4) % p) % p ∧ r3 % q = f.x[a] ^ ((q + 1) / 4) % q ∧
        (∀ j, j < 4 → (rootReg d j).val = d.val + j) ∧
        exec (.sqrt4 d a c e) s =
          .next { s with
            x := (((s.x.set (rootReg d 0) r1).set (rootReg d 1) ((n - r1) % n)).set (rootReg d 2) r3).set
              (rootReg d 3) ((n - r3) % n),
            flight := none, done := true })

/-- R256: the three root-set properties, for any input SQRT4 accepts. -/
def Obligations.RootSetProperties : Prop :=
  ∀ (opw c p q : Nat) (r : RootTuple), sqrt4Value opw c p q = .ok r →
    (r.r1 < p * q ∧ r.r2 < p * q ∧ r.r3 < p * q ∧ r.r4 < p * q) ∧
    (r.r2 = (p * q - r.r1) % (p * q) ∧ r.r4 = (p * q - r.r3) % (p * q)) ∧
    (r.r1 % p = c ^ ((p + 1) / 4) % p ∧ (r.r3 + c ^ ((p + 1) / 4)) % p = 0 ∧
      r.r1 % q = c ^ ((q + 1) / 4) % q ∧ r.r3 % q = c ^ ((q + 1) / 4) % q)

/-- R257: for distinct primes p ≡ q ≡ 3 (mod 4) and c a square (or 0) modulo each, equivalently c ≡ m² (mod n), the
four registers SQRT4 writes square to c mod n. -/
def Obligations.RootsSquareToC : Prop :=
  ∀ (s : State) (f : Snapshot) (k : Work) (d a c e : Reg) (p q : Nat), s.flight = some ⟨f, k⟩ →
    p = f.x[c] → q = f.x[e] → Nat.Prime p → Nat.Prime q → p ≠ q → p % 4 = 3 → q % 4 = 3 →
    ((isSquareMod f.x[a] p ∧ isSquareMod f.x[a] q) ↔ isSquareMod f.x[a] (p * q)) ∧
    (isSquareMod f.x[a] p → isSquareMod f.x[a] q → d.val ≤ 12 → p * q < 2 ^ s.cfg.opw →
      ∃ t, exec (.sqrt4 d a c e) s = .next t ∧ t.err = s.err ∧
        ∀ j, j < 4 → t.x[rootReg d j] ^ 2 % (p * q) = f.x[a] % (p * q))

/-- R258: the degenerate cases (a), (b), (c), and (d): where c mod p or c mod q is no square the values exist but
none squares to c; the example c = 3. -/
def Obligations.DegenerateAndNonResidueRoots : Prop :=
  (∀ (opw c p q : Nat) (r : RootTuple), sqrt4Value opw c p q = .ok r →
    (c % p = 0 → c ^ ((p + 1) / 4) % p = 0 ∧ r.r3 = r.r1 ∧ r.r4 = r.r2) ∧
    (c % q = 0 → c ^ ((q + 1) / 4) % q = 0 ∧ r.r3 = r.r2 ∧ r.r4 = r.r1) ∧
    (c % (p * q) = 0 → r = ⟨0, 0, 0, 0⟩) ∧
    ((¬ isSquareMod c p ∨ ¬ isSquareMod c q) → ∀ y ∈ [r.r1, r.r2, r.r3, r.r4], y ^ 2 % (p * q) ≠ c % (p * q))) ∧
  sqrt4Value 2048 3 7 11 = .ok ⟨16, 61, 5, 72⟩ ∧ ∀ y ∈ [16, 61, 5, 72], y ^ 2 % 77 = 25

/-! ## The transform -/

/-- R280, R281: TRANSFORM's words, its errors in order, and its results: the XOR of the four roots of m² mod n in
x[d] and the minimal byte width of n in RES. -/
def Obligations.TransformCombinesTheRoots : Prop :=
  (∀ (w : Word) (d a c e : Reg), decode w = .ok (.transform d a c e) ↔
    opField w = 0x50 ∧ dField w = d ∧ aField w = a ∧ cField w = c ∧ eField w = e ∧
      field w 12 4 = 0 ∧ field w 0 4 = 0) ∧
  ∀ (s : State) (f : Snapshot) (k : Work) (d a c e : Reg) (m p q n : Nat), s.flight = some ⟨f, k⟩ →
    m = f.x[a] → p = f.x[c] → q = f.x[e] → n = p * q →
    ((m = 0 ∨ n ≤ m) → exec (.transform d a c e) s = .next (failedWith .invalidArgument s)) ∧
    (0 < m → m < n → (p % 4 ≠ 3 ∨ q % 4 ≠ 3 ∨ p = q ∨ Nat.gcd p q ≠ 1) →
      exec (.transform d a c e) s = .next (failedWith .invalidModulus s)) ∧
    (0 < m → m < n → p % 4 = 3 → q % 4 = 3 → p ≠ q → Nat.gcd p q = 1 → 2 ^ s.cfg.opw ≤ n →
      exec (.transform d a c e) s = .next (failedWith .overflow s)) ∧
    (0 < m → m < n → p % 4 = 3 → q % 4 = 3 → p ≠ q → Nat.gcd p q = 1 → n < 2 ^ s.cfg.opw →
      ∃ r1 r3 w, r1 < n ∧ r3 < n ∧
        r1 % p = (m * m % n) ^ ((p + 1) / 4) % p ∧ r1 % q = (m * m % n) ^ ((q + 1) / 4) % q ∧
        r3 % p = (p - (m * m % n) ^ ((p + 1) / 4) % p) % p ∧ r3 % q = (m * m % n) ^ ((q + 1) / 4) % q ∧
        n < 2 ^ (8 * w) ∧ 2 ^ (8 * (w - 1)) ≤ n ∧
        exec (.transform d a c e) s =
          .next { s with x := s.x.set d (r1 ^^^ (n - r1) % n ^^^ r3 ^^^ (n - r3) % n),
                         res := BitVec.ofNat 32 w, flight := none, done := true })

/-- R281, R286: the result fits the width in RES, so FITW of it to that width never fails; the example m = 14. -/
def Obligations.TransformFitsItsWidth : Prop :=
  (∀ (s t : State) (p : Snapshot) (k : Work) (d a c e : Reg), s.cfg.wf → s.flight = some ⟨p, k⟩ →
    s.err = false → exec (.transform d a c e) s = .next t → t.err = false →
    t.x[d] < 2 ^ (8 * t.res.toNat) ∧ t.res.toNat < 2 ^ 16 ∧
    ∀ (s' : State) (p' : Snapshot) (k' : Work) (b : Reg), s'.flight = some ⟨p', k'⟩ → p'.x[d] = t.x[d] →
      exec (.fitw b d (BitVec.ofNat 16 t.res.toNat)) s' = .next (wroteReg b t.x[d] s')) ∧
  roots (14 * 14 % 77) 7 11 = ⟨14, 63, 14, 63⟩ ∧ transformValue 2048 14 7 11 = .ok (0, 1)

/-- R282, R283: the lane-wise XOR of the four roots' w-byte encodings decodes to the integer XOR that TRANSFORM
writes. -/
def Obligations.LaneXorIsIntegerXor : Prop :=
  (∀ w a b : Nat, a < 2 ^ (8 * w) → b < 2 ^ (8 * w) →
    fwd (xorLanes (fwbBytes a w) (fwbBytes b w)) = a ^^^ b) ∧
  ∀ (opw m p q v w : Nat), transformValue opw m p q = .ok (v, w) →
    let r := roots (m * m % (p * q)) p q
    v = fwd (xorLanes (xorLanes (xorLanes (fwbBytes r.r1 w) (fwbBytes r.r2 w)) (fwbBytes r.r3 w)) (fwbBytes r.r4 w))

/-- R16: FWB's bytes, its Overflow, FWD's sum, and the round trip. -/
def Obligations.FixedWidthRoundTrip : Prop :=
  (∀ v w : Nat, v < 2 ^ (8 * w) → fwb v w = .ok (fwbBytes v w) ∧ (fwbBytes v w).length = w ∧
    (∀ j (h : j < (fwbBytes v w).length), ((fwbBytes v w)[j]).toNat = v / 2 ^ (8 * (w - 1 - j)) % 256) ∧
    fwd (fwbBytes v w) = v) ∧
  (∀ v w : Nat, 2 ^ (8 * w) ≤ v → fwb v w = .error .overflow) ∧
  ∀ bs : List Byte, fwd bs = ∑ j : Fin bs.length, (bs[j]).toNat * 2 ^ (8 * (bs.length - 1 - j.val))

/-- R284: swapping p and q changes nothing TRANSFORM does, it exchanges r3 and r4, and no draw is taken. -/
def Obligations.TransformIsSwapInvariant : Prop :=
  (∀ (s : State) (d a c e : Reg), exec (.transform d a c e) s = exec (.transform d a e c) s) ∧
  (∀ (opw c p q : Nat) (r : RootTuple), sqrt4Value opw c p q = .ok r →
    sqrt4Value opw c q p = .ok ⟨r.r1, r.r2, r.r4, r.r3⟩) ∧
  ∀ (s t : State) (d a c e : Reg), exec (.transform d a c e) s = .next t → t.rng = s.rng

/-- R285 as the spec states it, for every accepted TRANSFORM. Expected to FAIL: R285 argues as if p and q were
prime, which TRANSFORM does not check (m = 63, p = 27, q = 7; log entry 10). -/
def Obligations.TransformSquareIsNonzeroAsWritten : Prop :=
  ∀ (opw m p q : Nat) (r : Nat × Nat), transformValue opw m p q = .ok r → m * m % (p * q) ≠ 0

/-- R285 where its argument holds: for prime p and q an accepted TRANSFORM has c ≠ 0. -/
def Obligations.TransformSquareIsNonzeroForPrimes : Prop :=
  ∀ (opw m p q : Nat) (r : Nat × Nat), Nat.Prime p → Nat.Prime q → transformValue opw m p q = .ok r →
    m * m % (p * q) ≠ 0
end

