-- ==== Sys2Proof/Laws/State.lean ====
section
/-! SUPPORT. One lemma per field and update of State, each true by rfl, so that no later proof unfolds a record
update. -/

namespace Sys2Proof.Machine

open Sys2Proof

/-! `engineReset`, field by field. -/

@[simp] theorem engineReset_cfg (s : State) : (engineReset s).cfg = s.cfg := rfl
@[simp] theorem engineReset_x (s : State) : (engineReset s).x = Vector.replicate 16 0 := rfl
@[simp] theorem engineReset_irqEn (s : State) : (engineReset s).irqEn = false := rfl
@[simp] theorem engineReset_done (s : State) : (engineReset s).done = false := rfl
@[simp] theorem engineReset_err (s : State) : (engineReset s).err = false := rfl
@[simp] theorem engineReset_coll (s : State) : (engineReset s).coll = false := rfl
@[simp] theorem engineReset_cmd (s : State) : (engineReset s).cmd = 0 := rfl
@[simp] theorem engineReset_errcode (s : State) : (engineReset s).errcode = none := rfl
@[simp] theorem engineReset_res (s : State) : (engineReset s).res = 0 := rfl
@[simp] theorem engineReset_rounds (s : State) : (engineReset s).rounds = 12 := rfl
@[simp] theorem engineReset_retryLimit (s : State) : (engineReset s).retryLimit = 0 := rfl
@[simp] theorem engineReset_retryCount (s : State) : (engineReset s).retryCount = 0 := rfl
@[simp] theorem engineReset_flight (s : State) : (engineReset s).flight = none := rfl
@[simp] theorem engineReset_rst (s : State) : (engineReset s).rst = s.rst := rfl
@[simp] theorem engineReset_rng (s : State) : (engineReset s).rng = s.rng := rfl
@[simp] theorem engineReset_agenda (s : State) : (engineReset s).agenda = s.agenda := rfl
@[simp] theorem engineReset_resp (s : State) : (engineReset s).resp = s.resp := rfl

/-! `accept`, field by field. -/

@[simp] theorem accept_cfg (w : Word) (s : State) : (accept w s).cfg = s.cfg := rfl
@[simp] theorem accept_x (w : Word) (s : State) : (accept w s).x = s.x := rfl
@[simp] theorem accept_irqEn (w : Word) (s : State) : (accept w s).irqEn = s.irqEn := rfl
@[simp] theorem accept_done (w : Word) (s : State) : (accept w s).done = false := rfl
@[simp] theorem accept_err (w : Word) (s : State) : (accept w s).err = false := rfl
@[simp] theorem accept_coll (w : Word) (s : State) : (accept w s).coll = s.coll := rfl
@[simp] theorem accept_cmd (w : Word) (s : State) : (accept w s).cmd = w := rfl
@[simp] theorem accept_errcode (w : Word) (s : State) : (accept w s).errcode = none := rfl
@[simp] theorem accept_res (w : Word) (s : State) : (accept w s).res = s.res := rfl
@[simp] theorem accept_rounds (w : Word) (s : State) : (accept w s).rounds = s.rounds := rfl
@[simp] theorem accept_retryLimit (w : Word) (s : State) : (accept w s).retryLimit = s.retryLimit := rfl
@[simp] theorem accept_retryCount (w : Word) (s : State) : (accept w s).retryCount = s.retryCount := rfl
@[simp] theorem accept_flight (w : Word) (s : State) : (accept w s).flight = some { snap := takeSnapshot s, work := .start } := rfl
@[simp] theorem accept_rst (w : Word) (s : State) : (accept w s).rst = s.rst := rfl
@[simp] theorem accept_rng (w : Word) (s : State) : (accept w s).rng = s.rng := rfl
@[simp] theorem accept_agenda (w : Word) (s : State) : (accept w s).agenda = s.agenda := rfl
@[simp] theorem accept_resp (w : Word) (s : State) : (accept w s).resp = s.resp := rfl

/-! `succeed`, field by field. -/

@[simp] theorem succeed_cfg (c : Commit) (s : State) : (succeed c s).cfg = s.cfg := rfl
@[simp] theorem succeed_x (c : Commit) (s : State) : (succeed c s).x = writeRegs s.x c.regs := rfl
@[simp] theorem succeed_irqEn (c : Commit) (s : State) : (succeed c s).irqEn = s.irqEn := rfl
@[simp] theorem succeed_done (c : Commit) (s : State) : (succeed c s).done = true := rfl
@[simp] theorem succeed_err (c : Commit) (s : State) : (succeed c s).err = s.err := rfl
@[simp] theorem succeed_coll (c : Commit) (s : State) : (succeed c s).coll = s.coll := rfl
@[simp] theorem succeed_cmd (c : Commit) (s : State) : (succeed c s).cmd = s.cmd := rfl
@[simp] theorem succeed_errcode (c : Commit) (s : State) : (succeed c s).errcode = s.errcode := rfl
@[simp] theorem succeed_res (c : Commit) (s : State) : (succeed c s).res = c.res.getD s.res := rfl
@[simp] theorem succeed_rounds (c : Commit) (s : State) : (succeed c s).rounds = s.rounds := rfl
@[simp] theorem succeed_retryLimit (c : Commit) (s : State) : (succeed c s).retryLimit = s.retryLimit := rfl
@[simp] theorem succeed_retryCount (c : Commit) (s : State) : (succeed c s).retryCount = c.retryCount.getD s.retryCount := rfl
@[simp] theorem succeed_flight (c : Commit) (s : State) : (succeed c s).flight = none := rfl
@[simp] theorem succeed_rst (c : Commit) (s : State) : (succeed c s).rst = s.rst := rfl
@[simp] theorem succeed_rng (c : Commit) (s : State) : (succeed c s).rng = s.rng := rfl
@[simp] theorem succeed_agenda (c : Commit) (s : State) : (succeed c s).agenda = s.agenda := rfl
@[simp] theorem succeed_resp (c : Commit) (s : State) : (succeed c s).resp = s.resp := rfl

/-! `fail`, field by field. -/

@[simp] theorem fail_cfg (e : CmdError) (s : State) : (fail e s).cfg = s.cfg := rfl
@[simp] theorem fail_x (e : CmdError) (s : State) : (fail e s).x = s.x := rfl
@[simp] theorem fail_irqEn (e : CmdError) (s : State) : (fail e s).irqEn = s.irqEn := rfl
@[simp] theorem fail_done (e : CmdError) (s : State) : (fail e s).done = true := rfl
@[simp] theorem fail_err (e : CmdError) (s : State) : (fail e s).err = true := rfl
@[simp] theorem fail_coll (e : CmdError) (s : State) : (fail e s).coll = s.coll := rfl
@[simp] theorem fail_cmd (e : CmdError) (s : State) : (fail e s).cmd = s.cmd := rfl
@[simp] theorem fail_errcode (e : CmdError) (s : State) : (fail e s).errcode = some e := rfl
@[simp] theorem fail_res (e : CmdError) (s : State) : (fail e s).res = s.res := rfl
@[simp] theorem fail_rounds (e : CmdError) (s : State) : (fail e s).rounds = s.rounds := rfl
@[simp] theorem fail_retryLimit (e : CmdError) (s : State) : (fail e s).retryLimit = s.retryLimit := rfl
@[simp] theorem fail_retryCount (e : CmdError) (s : State) : (fail e s).retryCount = s.retryCount := rfl
@[simp] theorem fail_flight (e : CmdError) (s : State) : (fail e s).flight = none := rfl
@[simp] theorem fail_rst (e : CmdError) (s : State) : (fail e s).rst = s.rst := rfl
@[simp] theorem fail_rng (e : CmdError) (s : State) : (fail e s).rng = s.rng := rfl
@[simp] theorem fail_agenda (e : CmdError) (s : State) : (fail e s).agenda = s.agenda := rfl
@[simp] theorem fail_resp (e : CmdError) (s : State) : (fail e s).resp = s.resp := rfl

/-! `collide`, field by field. -/

@[simp] theorem collide_cfg (s : State) : (collide s).cfg = s.cfg := rfl
@[simp] theorem collide_x (s : State) : (collide s).x = s.x := rfl
@[simp] theorem collide_irqEn (s : State) : (collide s).irqEn = s.irqEn := rfl
@[simp] theorem collide_done (s : State) : (collide s).done = s.done := rfl
@[simp] theorem collide_err (s : State) : (collide s).err = s.err := rfl
@[simp] theorem collide_coll (s : State) : (collide s).coll = true := rfl
@[simp] theorem collide_cmd (s : State) : (collide s).cmd = s.cmd := rfl
@[simp] theorem collide_errcode (s : State) : (collide s).errcode = s.errcode := rfl
@[simp] theorem collide_res (s : State) : (collide s).res = s.res := rfl
@[simp] theorem collide_rounds (s : State) : (collide s).rounds = s.rounds := rfl
@[simp] theorem collide_retryLimit (s : State) : (collide s).retryLimit = s.retryLimit := rfl
@[simp] theorem collide_retryCount (s : State) : (collide s).retryCount = s.retryCount := rfl
@[simp] theorem collide_flight (s : State) : (collide s).flight = s.flight := rfl
@[simp] theorem collide_rst (s : State) : (collide s).rst = s.rst := rfl
@[simp] theorem collide_rng (s : State) : (collide s).rng = s.rng := rfl
@[simp] theorem collide_agenda (s : State) : (collide s).agenda = s.agenda := rfl
@[simp] theorem collide_resp (s : State) : (collide s).resp = s.resp := rfl

/-! `clearStatus`, field by field. -/

@[simp] theorem clearStatus_cfg (v : Word) (s : State) : (clearStatus v s).cfg = s.cfg := rfl
@[simp] theorem clearStatus_x (v : Word) (s : State) : (clearStatus v s).x = s.x := rfl
@[simp] theorem clearStatus_irqEn (v : Word) (s : State) : (clearStatus v s).irqEn = s.irqEn := rfl
@[simp] theorem clearStatus_done (v : Word) (s : State) : (clearStatus v s).done = (s.done && !v.getLsbD 1) := rfl
@[simp] theorem clearStatus_err (v : Word) (s : State) : (clearStatus v s).err = s.err := rfl
@[simp] theorem clearStatus_coll (v : Word) (s : State) : (clearStatus v s).coll = (s.coll && !v.getLsbD 3) := rfl
@[simp] theorem clearStatus_cmd (v : Word) (s : State) : (clearStatus v s).cmd = s.cmd := rfl
@[simp] theorem clearStatus_errcode (v : Word) (s : State) : (clearStatus v s).errcode = s.errcode := rfl
@[simp] theorem clearStatus_res (v : Word) (s : State) : (clearStatus v s).res = s.res := rfl
@[simp] theorem clearStatus_rounds (v : Word) (s : State) : (clearStatus v s).rounds = s.rounds := rfl
@[simp] theorem clearStatus_retryLimit (v : Word) (s : State) : (clearStatus v s).retryLimit = s.retryLimit := rfl
@[simp] theorem clearStatus_retryCount (v : Word) (s : State) : (clearStatus v s).retryCount = s.retryCount := rfl
@[simp] theorem clearStatus_flight (v : Word) (s : State) : (clearStatus v s).flight = s.flight := rfl
@[simp] theorem clearStatus_rst (v : Word) (s : State) : (clearStatus v s).rst = s.rst := rfl
@[simp] theorem clearStatus_rng (v : Word) (s : State) : (clearStatus v s).rng = s.rng := rfl
@[simp] theorem clearStatus_agenda (v : Word) (s : State) : (clearStatus v s).agenda = s.agenda := rfl
@[simp] theorem clearStatus_resp (v : Word) (s : State) : (clearStatus v s).resp = s.resp := rfl

/-! `deliver`, field by field. -/

@[simp] theorem deliver_cfg (v : Nat) (s : State) : (deliver v s).cfg = s.cfg := rfl
@[simp] theorem deliver_x (v : Nat) (s : State) : (deliver v s).x = s.x := rfl
@[simp] theorem deliver_irqEn (v : Nat) (s : State) : (deliver v s).irqEn = s.irqEn := rfl
@[simp] theorem deliver_done (v : Nat) (s : State) : (deliver v s).done = s.done := rfl
@[simp] theorem deliver_err (v : Nat) (s : State) : (deliver v s).err = s.err := rfl
@[simp] theorem deliver_coll (v : Nat) (s : State) : (deliver v s).coll = s.coll := rfl
@[simp] theorem deliver_cmd (v : Nat) (s : State) : (deliver v s).cmd = s.cmd := rfl
@[simp] theorem deliver_errcode (v : Nat) (s : State) : (deliver v s).errcode = s.errcode := rfl
@[simp] theorem deliver_res (v : Nat) (s : State) : (deliver v s).res = s.res := rfl
@[simp] theorem deliver_rounds (v : Nat) (s : State) : (deliver v s).rounds = s.rounds := rfl
@[simp] theorem deliver_retryLimit (v : Nat) (s : State) : (deliver v s).retryLimit = s.retryLimit := rfl
@[simp] theorem deliver_retryCount (v : Nat) (s : State) : (deliver v s).retryCount = s.retryCount := rfl
@[simp] theorem deliver_flight (v : Nat) (s : State) : (deliver v s).flight = s.flight := rfl
@[simp] theorem deliver_rst (v : Nat) (s : State) : (deliver v s).rst = s.rst := rfl
@[simp] theorem deliver_rng (v : Nat) (s : State) : (deliver v s).rng = s.rng ++ [v] := rfl
@[simp] theorem deliver_agenda (v : Nat) (s : State) : (deliver v s).agenda = s.agenda := rfl
@[simp] theorem deliver_resp (v : Nat) (s : State) : (deliver v s).resp = s.resp := rfl

/-! `issueWord`, field by field. -/

@[simp] theorem issueWord_cfg (w : Word) (s : State) : (issueWord w s).cfg = s.cfg := rfl
@[simp] theorem issueWord_x (w : Word) (s : State) : (issueWord w s).x = s.x := rfl
@[simp] theorem issueWord_irqEn (w : Word) (s : State) : (issueWord w s).irqEn = s.irqEn := rfl
@[simp] theorem issueWord_done (w : Word) (s : State) : (issueWord w s).done = false := rfl
@[simp] theorem issueWord_err (w : Word) (s : State) : (issueWord w s).err = false := rfl
@[simp] theorem issueWord_coll (w : Word) (s : State) : (issueWord w s).coll = s.coll := rfl
@[simp] theorem issueWord_cmd (w : Word) (s : State) : (issueWord w s).cmd = w := rfl
@[simp] theorem issueWord_errcode (w : Word) (s : State) : (issueWord w s).errcode = none := rfl
@[simp] theorem issueWord_res (w : Word) (s : State) : (issueWord w s).res = s.res := rfl
@[simp] theorem issueWord_rounds (w : Word) (s : State) : (issueWord w s).rounds = s.rounds := rfl
@[simp] theorem issueWord_retryLimit (w : Word) (s : State) : (issueWord w s).retryLimit = s.retryLimit := rfl
@[simp] theorem issueWord_retryCount (w : Word) (s : State) : (issueWord w s).retryCount = s.retryCount := rfl
@[simp] theorem issueWord_flight (w : Word) (s : State) : (issueWord w s).flight = some { snap := takeSnapshot s, work := .start } := rfl
@[simp] theorem issueWord_rst (w : Word) (s : State) : (issueWord w s).rst = false := rfl
@[simp] theorem issueWord_rng (w : Word) (s : State) : (issueWord w s).rng = s.rng := rfl
@[simp] theorem issueWord_agenda (w : Word) (s : State) : (issueWord w s).agenda = .engine :: s.agenda := rfl
@[simp] theorem issueWord_resp (w : Word) (s : State) : (issueWord w s).resp = s.resp := rfl

/-- BUSY after each update (R34, R45). -/
@[simp] theorem engineReset_busy (s : State) : (engineReset s).busy = false := rfl
@[simp] theorem accept_busy (w : Word) (s : State) : (accept w s).busy = true := rfl
@[simp] theorem succeed_busy (c : Commit) (s : State) : (succeed c s).busy = false := rfl
@[simp] theorem fail_busy (e : CmdError) (s : State) : (fail e s).busy = false := rfl
@[simp] theorem collide_busy (s : State) : (collide s).busy = s.busy := rfl
@[simp] theorem clearStatus_busy (v : Word) (s : State) : (clearStatus v s).busy = s.busy := rfl
@[simp] theorem deliver_busy (v : Nat) (s : State) : (deliver v s).busy = s.busy := rfl

/-- BUSY = 1 exactly when a command is in flight (R34). -/
theorem busy_iff (s : State) : s.busy = true ↔ ∃ f, s.flight = some f := by
  simp [State.busy, Option.isSome_iff_exists]

theorem not_busy_iff (s : State) : s.busy = false ↔ s.flight = none := by
  simp [State.busy]

end Sys2Proof.Machine
end

