-- ==== Sys2Proof/Laws/Ops.lean ====
section
/-! SUPPORT. What each shared operation can do, said once: register commits, completion, the RNG draw, and the
two ways a command executes. -/

namespace Sys2Proof.Machine

open Sys2Proof

/-- A commit leaves alone every register it does not name. -/
theorem writeRegs_of_not_mem {l : List (Reg × Nat)} {r : Reg} (x : Vector Nat 16)
    (h : r ∉ l.map Prod.fst) : (writeRegs x l)[r] = x[r] := by
  induction l generalizing x with
  | nil => rfl
  | cons a l ih =>
    obtain ⟨d, v⟩ := a
    simp only [List.map_cons, List.mem_cons, not_or] at h
    have hne : ¬ (d : Nat) = (r : Nat) := fun e => h.1 (Fin.ext e.symm)
    rw [writeRegs, ih _ h.2]
    simp [hne]

/-- Any register after a commit holds its old value or a written one. -/
theorem writeRegs_cases (l : List (Reg × Nat)) (r : Reg) (x : Vector Nat 16) :
    (writeRegs x l)[r] = x[r] ∨ ∃ v, (r, v) ∈ l ∧ (writeRegs x l)[r] = v := by
  induction l generalizing x with
  | nil => exact .inl rfl
  | cons a l ih =>
    obtain ⟨d, v⟩ := a
    obtain h | ⟨u, hu, h⟩ := ih (x.set d v)
    · by_cases e : d = r
      · subst e
        exact .inr ⟨v, by simp, by rw [writeRegs, h]; simp⟩
      · have hne : ¬ (d : Nat) = (r : Nat) := fun h => e (Fin.ext h)
        exact .inl (by rw [writeRegs, h]; simp [hne])
    · exact .inr ⟨u, by simp [hu], by rw [writeRegs, h]⟩

@[simp] theorem writeRegs_reg (x : Vector Nat 16) (d : Reg) (v : Nat) :
    writeRegs x (Commit.reg d v).regs = x.set d v := rfl

@[simp] theorem complete_ok (c : Commit) (s : State) : complete (.ok c) s = succeed c s := rfl

@[simp] theorem complete_error (e : CmdError) (s : State) : complete (.error e) s = fail e s := rfl

/-- Completion always leaves the engine idle with DONE = 1 (R46). -/
@[simp] theorem complete_flight (r : Except CmdError Commit) (s : State) : (complete r s).flight = none := by
  cases r <;> rfl

@[simp] theorem complete_done (r : Except CmdError Commit) (s : State) : (complete r s).done = true := by
  cases r <;> rfl

/-- A draw takes the first delivered value in range and rejects those before it (R15). -/
theorem draw_some {ok : Nat → Bool} {ds : List Nat} {v : Nat} {rest : List Nat}
    (h : draw ok ds = some (v, rest)) :
    ok v = true ∧ ∃ skipped, ds = skipped ++ v :: rest ∧ ∀ u ∈ skipped, ok u = false := by
  induction ds with
  | nil => simp [draw] at h
  | cons a ds ih =>
    by_cases ha : ok a = true
    · simp only [draw, ha, if_true, Option.some.injEq, Prod.mk.injEq] at h
      obtain ⟨rfl, rfl⟩ := h
      exact ⟨ha, [], by simp⟩
    · simp only [draw, ha, Bool.false_eq_true, if_false] at h
      obtain ⟨hv, sk, rfl, hsk⟩ := ih h
      exact ⟨hv, a :: sk, rfl, by simpa [ha] using hsk⟩

/-- A draw waits exactly when nothing in range has been delivered (R52). -/
theorem draw_none_iff (ok : Nat → Bool) (ds : List Nat) :
    draw ok ds = none ↔ ∀ u ∈ ds, ok u = false := by
  induction ds with
  | nil => simp [draw]
  | cons a ds ih => by_cases ha : ok a = true <;> simp [draw, ha, ih]

/-- A value in range at the head is the draw. -/
theorem draw_cons_of_inRange {ok : Nat → Bool} {v : Nat} (ds : List Nat) (h : ok v = true) :
    draw ok (v :: ds) = some (v, ds) := by simp [draw, h]

/-- Later deliveries do not change a draw that is already there. -/
theorem draw_append_of_some {ok : Nat → Bool} {ds : List Nat} {v : Nat} {rest : List Nat} (more : List Nat)
    (h : draw ok ds = some (v, rest)) : draw ok (ds ++ more) = some (v, rest ++ more) := by
  induction ds with
  | nil => simp [draw] at h
  | cons a ds ih =>
    by_cases ha : ok a = true <;> simp_all [draw]

/-- Values out of range add nothing to a draw. -/
theorem draw_append_of_none {ok : Nat → Bool} {ds : List Nat} (more : List Nat)
    (h : draw ok ds = none) : draw ok (ds ++ more) = draw ok more := by
  induction ds with
  | nil => rfl
  | cons a ds ih => by_cases ha : ok a = true <;> simp_all [draw]

/-- A command that draws nothing completes, when one is in flight (R46). -/
theorem run_of_flight {body : Config → Snapshot → Except CmdError Commit} {s : State} {f : Flight}
    (h : s.flight = some f) : run body s = .next (complete (body s.cfg f.snap) s) := by
  simp [run, h]

/-- Everything `run` can do: stay idle, or complete. -/
theorem run_cases {body : Config → Snapshot → Except CmdError Commit} {s t : State}
    (h : run body s = .next t) :
    (s.flight = none ∧ t = s) ∨ ∃ f, s.flight = some f ∧ t = complete (body s.cfg f.snap) s := by
  unfold run at h
  split at h
  · exact .inl ⟨‹_›, by cases h; rfl⟩
  · exact .inr ⟨_, ‹_›, by cases h; rfl⟩

/-- Everything `runDrawing` can do: stay idle, complete with the unconsumed values left, or wait. -/
theorem runDrawing_cases {body : Config → Flight → List Nat → Progress} {s t : State}
    (h : runDrawing body s = .next t) :
    (s.flight = none ∧ t = s) ∨
    (∃ f r rest, s.flight = some f ∧ body s.cfg f s.rng = .ended r rest ∧
      t = complete r { s with rng := rest }) ∨
    (∃ f w, s.flight = some f ∧ body s.cfg f s.rng = .waiting w ∧
      t = { s with rng := [], flight := some { f with work := w } }) := by
  unfold runDrawing at h
  split at h
  · exact .inl ⟨‹_›, by cases h; rfl⟩
  · split at h
    · exact .inr (.inl ⟨_, _, _, ‹_›, ‹_›, by cases h; rfl⟩)
    · exact .inr (.inr ⟨_, _, ‹_›, ‹_›, by cases h; rfl⟩)

theorem runDrawing_of_ended {body : Config → Flight → List Nat → Progress} {s : State} {f : Flight}
    {r : Except CmdError Commit} {rest : List Nat} (h : s.flight = some f)
    (hb : body s.cfg f s.rng = .ended r rest) :
    runDrawing body s = .next (complete r { s with rng := rest }) := by
  simp [runDrawing, h, hb]

theorem runDrawing_of_waiting {body : Config → Flight → List Nat → Progress} {s : State} {f : Flight}
    {w : Work} (h : s.flight = some f) (hb : body s.cfg f s.rng = .waiting w) :
    runDrawing body s = .next { s with rng := [], flight := some { f with work := w } } := by
  simp [runDrawing, h, hb]

end Sys2Proof.Machine
end

