-- ==== Sys2Proof/Laws/Bus.lean ====
section
/-! SUPPORT. The bus byte lanes as bits and numbers, and what a host access can do, said once (R70–R76). -/

namespace Sys2Proof.Machine

open Sys2Proof

/-- Lane j carries bits [8j+7:8j] (R73). -/
theorem toLanes_getLsbD (w : Word) (j : Fin 4) (i : Nat) :
    (toLanes w)[j].getLsbD i = (decide (i < 8) && w.getLsbD (8 * j.val + i)) := by
  fin_cases j <;> simp [toLanes, BitVec.getLsbD_extractLsb']

/-- The word the lanes carry, bit by bit (R73). -/
theorem fromLanes_getLsbD (b : Lanes) (j : Fin 4) {i : Nat} (hi : i < 8) :
    (fromLanes b).getLsbD (8 * j.val + i) = b[j].getLsbD i := by
  fin_cases j <;> simp [fromLanes, hi] <;> grind

/-- A word put on the lanes and taken off them is the word. -/
@[simp] theorem fromLanes_toLanes (w : Word) : fromLanes (toLanes w) = w := by
  refine BitVec.eq_of_getLsbD_eq fun i hi => ?_
  have h := fromLanes_getLsbD (toLanes w) ⟨i / 8, by omega⟩ (i := i % 8) (by omega)
  rw [toLanes_getLsbD] at h
  simpa [Nat.div_add_mod, Nat.mod_lt i (show 0 < 8 by decide)] using h

/-- Lanes taken off the bus as a word and put back are the lanes. -/
@[simp] theorem toLanes_fromLanes (b : Lanes) : toLanes (fromLanes b) = b := by
  refine Vector.ext fun j hj => BitVec.eq_of_getLsbD_eq fun i hi => ?_
  have h := toLanes_getLsbD (fromLanes b) ⟨j, hj⟩ i
  rw [fromLanes_getLsbD b ⟨j, hj⟩ hi] at h
  simpa [hi] using h

/-- The lanes weigh 2^(8j) (R73). -/
theorem fromLanes_toNat (b : Lanes) : (fromLanes b).toNat = ∑ j : Fin 4, b[j].toNat * 2 ^ (8 * j.val) := by
  have e (u v : Nat) (h : v < 2 ^ 8) : u <<< 8 ||| v = u * 2 ^ 8 + v := by
    rw [Nat.shiftLeft_eq, Nat.mul_comm, Nat.two_pow_add_eq_or_of_lt h]
  rw [fromLanes, BitVec.toNat_append, BitVec.toNat_append, BitVec.toNat_append, e _ _ b[2].isLt, e _ _ b[1].isLt,
    e _ _ b[0].isLt, Fin.sum_univ_four]
  show _ = b[0].toNat * 2 ^ 0 + b[1].toNat * 2 ^ 8 + b[2].toNat * 2 ^ 16 + b[3].toNat * 2 ^ 24
  omega

/-- Lane j as a number (R73). -/
theorem toLanes_toNat (w : Word) (j : Fin 4) : (toLanes w)[j].toNat = w.toNat / 2 ^ (8 * j.val) % 2 ^ 8 := by
  fin_cases j <;> simp [toLanes, BitVec.extractLsb'_toNat, Nat.shiftRight_eq_div_pow]

/-- A write either is performed, or is dropped with COLL (R40). -/
theorem unlessBusy_busy {s : State} (f : State → State) (h : s.busy = true) : unlessBusy f s = collide s := by
  simp [unlessBusy, h]

theorem unlessBusy_idle {s : State} (f : State → State) (h : s.busy = false) : unlessBusy f s = f s := by
  simp [unlessBusy, h]

/-- Everything a host access that is answered can do: a read or a bus error changes only the response, an
admitted write is the write of its offset. -/
theorem hostAccess_cases {a : Access} {s t : State} (h : hostAccess a s = .next t) :
    s.rst = false ∧
    ((∃ r, t = { s with resp := some r }) ∨
     (∃ addr lanes, a = .write addr 4 lanes ∧ addr % 4 = 0 ∧ s.cfg.base ≤ addr ∧ addr < s.cfg.base + 0x8000 ∧
       t = { writeOffset s (addr - s.cfg.base) (fromLanes lanes) with resp := some .written })) := by
  unfold hostAccess at h
  split at h
  · cases h
  · rename_i hr
    refine ⟨by simpa using hr, ?_⟩
    split at h
    · split at h
      · split at h <;> cases h <;> exact .inl ⟨_, rfl⟩
      · cases h
    · split at h
      · split at h
        · rename_i hw ha
          cases h
          simp only [inWindow, admitted, decide_eq_true_eq] at hw ha
          obtain ⟨rfl, ha⟩ := ha
          exact .inr ⟨_, _, rfl, ha, hw.1, hw.2, rfl⟩
        · cases h; exact .inl ⟨_, rfl⟩
      · cases h

/-- A limb location lies below LIMBS, and is the one its offset spells (R41). -/
theorem locate_limb {c : Config} {off : Nat} {i : Reg} {k : Nat} (h : locate c off = .limb i k) :
    k < c.limbs ∧ i = windowReg off ∧ k = windowLimb off := by
  simp only [locate] at h
  iterate 10 (rw [ite_eq_iff] at h; obtain ⟨-, h⟩ | ⟨-, h⟩ := h; · exact Location.noConfusion h)
  split at h
  · split at h
    · rename_i hk
      injection h with h1 h2
      subst h1 h2
      exact ⟨hk, rfl, rfl⟩
    · exact Location.noConfusion h
  · exact Location.noConfusion h

/-- Everything a write can do to the state, location by location: nothing, COLL only, a soft reset, or the
one register it names (R40). -/
theorem writeOffset_cases (s : State) (off : Nat) (v : Word) :
    writeOffset s off v = s ∨ (s.busy = true ∧ writeOffset s off v = collide s) ∨
    writeOffset s off v = engineReset s ∨ writeOffset s off v = { s with irqEn := v.getLsbD 0 } ∨
    writeOffset s off v = clearStatus v s ∨
    (s.busy = false ∧ (writeOffset s off v = accept v s ∨
      writeOffset s off v = { s with rounds := BitVec.ofNat 16 v.toNat } ∨
      writeOffset s off v = { s with retryLimit := v } ∨
      ∃ (i : Reg) (k : Nat), k < s.cfg.limbs ∧ writeOffset s off v = { s with x := s.x.set i (withLimb s.x[i] k v) })) := by
  unfold writeOffset
  cases hl : locate s.cfg off <;> simp only [writeLocation, writeCtrl]
  case ctrl => split <;> simp
  case limb i k =>
    cases hb : s.busy
    · rw [unlessBusy_idle _ hb]
      exact .inr (.inr (.inr (.inr (.inr ⟨rfl, .inr (.inr (.inr ⟨i, k, (locate_limb hl).1, rfl⟩))⟩))))
    · rw [unlessBusy_busy _ hb]; simp
  all_goals first
    | exact .inl rfl
    | (cases hb : s.busy <;> simp [unlessBusy, hb])

end Sys2Proof.Machine
end

