-- ==== Sys2Proof/Laws/Decode.lean ====
section
/-! SUPPORT. The fields of a command word as bits, and the words the encoder lays out as numbers (R101, R102). -/

namespace Sys2Proof

/-- Bit j of a field is bit lo + j of the word (R6). -/
theorem field_testBit (w : Word) (lo n j : Nat) :
    (field w lo n).testBit j = (decide (j < n) && w.getLsbD (lo + j)) := by
  simp [field, Nat.testBit_mod_two_pow, Nat.testBit_div_two_pow, BitVec.getLsbD, Nat.add_comm]

/-- A field holds a number exactly when its bits do. -/
theorem field_eq_iff (w : Word) (lo n v : Nat) (hv : v < 2 ^ n) :
    field w lo n = v ↔ ∀ j : Fin n, w.getLsbD (lo + j) = v.testBit j := by
  refine ⟨fun h j => by rw [← h, field_testBit]; simp, fun h => Nat.eq_of_testBit_eq fun j => ?_⟩
  rw [field_testBit]
  by_cases hj : j < n
  · simpa [hj] using h ⟨j, hj⟩
  · rw [Nat.testBit_lt_two_pow (hv.trans_le (Nat.pow_le_pow_right (by omega) (by omega)))]
    simp [hj]

/-- A register field is the 4-bit field (R101). -/
theorem regField_val (w : Word) (lo : Nat) : (regField w lo).val = field w lo 4 := rfl

/-- A format R word as a number (R101). -/
theorem toNat_formatR {op d a b c e : Nat} (hop : op < 256) (hd : d < 16) (ha : a < 16) (hb : b < 16)
    (hc : c < 16) (he : e < 16) :
    (formatR op d a b c e).toNat =
      op * 2 ^ 24 + d * 2 ^ 20 + a * 2 ^ 16 + b * 2 ^ 12 + c * 2 ^ 8 + e * 2 ^ 4 := by
  simp only [formatR, BitVec.toNat_ofNat]; omega

/-- A format I word as a number (R102). -/
theorem toNat_formatI {op d a imm : Nat} (hop : op < 256) (hd : d < 16) (ha : a < 16) (hi : imm < 2 ^ 16) :
    (formatI op d a imm).toNat = op * 2 ^ 24 + d * 2 ^ 20 + a * 2 ^ 16 + imm := by
  simp only [formatI, BitVec.toNat_ofNat]; omega

end Sys2Proof
end

