-- ==== Sys2Proof/Laws/Primes.lean ====
section
/-! SUPPORT. What the Miller–Rabin rounds and the PRIMEGEN loop do with the delivered values: they consume
from the front, later deliveries change nothing already decided, and the loop's bound never bites. -/

namespace Sys2Proof.Machine

open Sys2Proof

/-- The rounds leave a suffix of the delivered values. -/
theorem mrRounds_suffix {n left : Nat} {ds : List Nat} {b : Bool} {rest : List Nat}
    (h : mrRounds n left ds = .answer b rest) : ∃ used, ds = used ++ rest := by
  induction left generalizing ds with
  | zero => simp only [mrRounds, Verdict.answer.injEq] at h; exact ⟨[], by simp [h.2]⟩
  | succ k ih =>
    rw [mrRounds] at h
    split at h
    · cases h
    · rename_i a r hd
      obtain ⟨-, sk, rfl, -⟩ := draw_some hd
      split at h
      · obtain ⟨u, rfl⟩ := ih h
        exact ⟨sk ++ a :: u, by simp⟩
      · simp only [Verdict.answer.injEq] at h
        exact ⟨sk ++ [a], by simp [h.2]⟩

/-- IsProbablePrime leaves a suffix of the delivered values. -/
theorem isProbablePrime_suffix {n rounds : Nat} {ds : List Nat} {b : Bool} {rest : List Nat}
    (h : isProbablePrime n rounds ds = .answer b rest) : ∃ used, ds = used ++ rest := by
  unfold isProbablePrime at h
  split at h
  · simp only [Verdict.answer.injEq] at h; exact ⟨[], by simp [h.2]⟩
  · exact mrRounds_suffix h

/-- A wait is for a round still to run. -/
theorem mrRounds_needs {n left : Nat} {ds : List Nat} {k : Nat} (h : mrRounds n left ds = .needs k) :
    1 ≤ k ∧ k ≤ left := by
  induction left generalizing ds with
  | zero => simp [mrRounds] at h
  | succ j ih =>
    rw [mrRounds] at h
    split at h
    · cases h; omega
    · split at h
      · have := ih h; omega
      · cases h

/-- Without a delivered value the rounds wait where they stand. -/
theorem mrRounds_nil (n left : Nat) : mrRounds n (left + 1) [] = .needs (left + 1) := rfl

/-- Later deliveries do not change an answer. -/
theorem mrRounds_append_of_answer {n left : Nat} {ds : List Nat} {b : Bool} {rest : List Nat}
    (more : List Nat) (h : mrRounds n left ds = .answer b rest) :
    mrRounds n left (ds ++ more) = .answer b (rest ++ more) := by
  induction left generalizing ds with
  | zero => simp only [mrRounds, Verdict.answer.injEq] at h ⊢; simp [h]
  | succ k ih =>
    rw [mrRounds] at h ⊢
    split at h
    · cases h
    · rename_i a r hd
      rw [draw_append_of_some more hd]
      dsimp only
      split at h
      · rename_i hp; rw [if_pos hp]; exact ih h
      · rename_i hp; cases h; rw [if_neg hp]

/-- A wait goes on with later deliveries as if they had been there from the start. -/
theorem mrRounds_append_of_needs {n left : Nat} {ds : List Nat} {k : Nat} (more : List Nat)
    (h : mrRounds n left ds = .needs k) : mrRounds n left (ds ++ more) = mrRounds n k more := by
  induction left generalizing ds with
  | zero => simp [mrRounds] at h
  | succ j ih =>
    rw [mrRounds] at h
    split at h
    · rename_i hd
      cases h
      rw [mrRounds, draw_append_of_none more hd, mrRounds]
    · rename_i a r hd
      split at h
      · rename_i hp
        rw [mrRounds, draw_append_of_some more hd]
        simp only [hp, if_true]
        exact ih h
      · cases h

/-- Each candidate consumes a delivered value. -/
theorem rest_lt_of_candidate {bits rounds : Nat} {ds rest rest' : List Nat} {r : Nat} {b : Bool}
    (hd : draw (candidateRange bits) ds = some (r, rest))
    (hp : isProbablePrime (candidate bits r) rounds rest = .answer b rest') : rest'.length < ds.length := by
  obtain ⟨-, sk, rfl, -⟩ := draw_some hd
  obtain ⟨u, rfl⟩ := isProbablePrime_suffix hp
  simp only [List.length_append, List.length_cons]
  omega

/-- The loop's bound never bites: any two bounds from the number of delivered values up agree. -/
theorem searchLoop_bound {d : Reg} {bits rounds limit : Nat} {n m count : Nat} {ds : List Nat}
    (hn : ds.length ≤ n) (hm : ds.length ≤ m) :
    searchLoop d bits rounds limit n count ds = searchLoop d bits rounds limit m count ds := by
  induction n generalizing m count ds with
  | zero =>
    have hds : ds = [] := List.eq_nil_of_length_eq_zero (by omega)
    subst hds
    cases m <;> simp [searchLoop, draw]
  | succ n ih =>
    cases m with
    | zero =>
      have hds : ds = [] := List.eq_nil_of_length_eq_zero (by omega)
      subst hds
      simp [searchLoop, draw]
    | succ m =>
      rw [searchLoop, searchLoop]
      split
      · rfl
      · split
        · rfl
        · rename_i r rest hd
          split
          · rfl
          · rfl
          · rename_i rest' hp
            have := rest_lt_of_candidate hd hp
            exact ih (by omega) (by omega)

/-- The loop of R230, unfolded once with no bound in sight. -/
theorem search_eq (d : Reg) (bits rounds limit count : Nat) (ds : List Nat) :
    search d bits rounds limit count ds =
      if limit ≠ 0 ∧ count = limit then .ended (.error .generationTimeout) ds
      else
        match draw (candidateRange bits) ds with
        | none => .waiting (.search count)
        | some (r, rest) =>
          match isProbablePrime (candidate bits r) rounds rest with
          | .answer true rest' => .ended (.ok (foundPrime d (candidate bits r) (count + 1))) rest'
          | .needs left => .waiting (.probe (count + 1) (candidate bits r) left)
          | .answer false rest' => search d bits rounds limit (count + 1) rest' := by
  rw [search, searchLoop.eq_def]
  dsimp only
  by_cases hc : limit ≠ 0 ∧ count = limit
  · rw [if_pos hc, if_pos hc]
  · rw [if_neg hc, if_neg hc]
    rcases hd : draw (candidateRange bits) ds with - | ⟨r, rest⟩
    · rfl
    · dsimp only
      rcases hp : isProbablePrime (candidate bits r) rounds rest with ⟨_ | _, rest'⟩ | left
      · have := rest_lt_of_candidate hd hp
        obtain ⟨n, hn⟩ : ∃ n, ds.length = n + 1 := ⟨ds.length - 1, by omega⟩
        rw [hn]
        exact searchLoop_bound (by omega) (le_refl _)
      · rfl
      · rfl

end Sys2Proof.Machine
end

