-- ==== Sys2Proof/Laws/Exec.lean ====
section
/-! SUPPORT. What executing a command can do, said once: stay idle, complete with a commit or an error the
command may raise, or wait. -/

namespace Sys2Proof.Machine

open Sys2Proof

/-- A commit a command may make: only its destinations, RES and RETRY_COUNT only where it writes them. -/
def allowedCommit (i : Instr) (c : Commit) : Prop :=
  (∀ e ∈ c.regs, e.1 ∈ destinations i) ∧ (writesRes i = false → c.res = none) ∧
    (writesCount i = false → c.retryCount = none)

/-- A result a command may complete with. -/
def allowedResult (i : Instr) (r : Except CmdError Commit) : Prop :=
  (∀ c, r = .ok c → allowedCommit i c) ∧ ∀ e, r = .error e → e ∈ raises i

theorem allowedResult_ok {i : Instr} {c : Commit} (h : allowedCommit i c) : allowedResult i (.ok c) :=
  ⟨fun _ hc => (by cases hc; exact h), fun _ he => (by cases he)⟩

theorem allowedResult_error {i : Instr} {e : CmdError} (h : e ∈ raises i) : allowedResult i (.error e) :=
  ⟨fun _ hc => (by cases hc), fun _ he => (by cases he; exact h)⟩

/-- A value written to the one destination is an allowed result; its errors are the value's. -/
theorem allowedResult_reg {i : Instr} {d : Reg} {v : Except CmdError Nat} (hd : d ∈ destinations i)
    (he : ∀ e, v = .error e → e ∈ raises i) : allowedResult i (v.map (Commit.reg d)) := by
  cases v with
  | ok v => exact allowedResult_ok ⟨by simp [Commit.reg, hd], fun _ => rfl, fun _ => rfl⟩
  | error e => exact allowedResult_error (he e rfl)

/-- How a drawing command's progress may end. -/
def allowedProgress (i : Instr) (ds : List Nat) : Progress → Prop
  | .ended r rest => (∃ used, ds = used ++ rest) ∧ allowedResult i r
  | .waiting _ => True

theorem mrtestVerdict_suffix {n rounds : Nat} {w : Work} {ds : List Nat} {b : Bool} {rest : List Nat}
    (h : mrtestVerdict n rounds w ds = .answer b rest) : ∃ used, ds = used ++ rest := by
  cases w with
  | rounds left => exact mrRounds_suffix h
  | start => exact isProbablePrime_suffix h
  | search _ => exact isProbablePrime_suffix h
  | probe _ _ _ => exact isProbablePrime_suffix h

theorem mrtestBody_allowed (a : Reg) (f : Flight) (ds : List Nat) :
    allowedProgress (.mrtest a) ds (mrtestBody a f ds) := by
  unfold mrtestBody
  cases hv : mrtestVerdict (f.snap.src a) f.snap.rounds.toNat f.work ds with
  | answer b rest =>
    exact ⟨mrtestVerdict_suffix hv, allowedResult_ok ⟨by simp, by simp [writesRes], fun _ => rfl⟩⟩
  | needs left => trivial

theorem searchLoop_allowed (d : Reg) (bits : Imm) (n rounds limit fuel count : Nat) (ds : List Nat) :
    allowedProgress (.primegen d bits) ds (searchLoop d n rounds limit fuel count ds) := by
  have found : ∀ p c, allowedResult (.primegen d bits) (.ok (foundPrime d p c)) := fun p c =>
    allowedResult_ok ⟨by simp [foundPrime, destinations], fun _ => rfl, by simp [writesCount]⟩
  induction fuel generalizing count ds with
  | zero =>
    rw [searchLoop]
    split
    · exact ⟨⟨[], rfl⟩, allowedResult_error (by simp [raises])⟩
    · split
      · trivial
      · rename_i r rest hd
        obtain ⟨-, sk, rfl, -⟩ := draw_some hd
        split
        · rename_i rest' hp
          obtain ⟨u, rfl⟩ := isProbablePrime_suffix hp
          exact ⟨⟨sk ++ r :: u, by simp⟩, found _ _⟩
        · trivial
        · trivial
  | succ fuel ih =>
    rw [searchLoop]
    split
    · exact ⟨⟨[], rfl⟩, allowedResult_error (by simp [raises])⟩
    · split
      · trivial
      · rename_i r rest hd
        obtain ⟨-, sk, rfl, -⟩ := draw_some hd
        split
        · rename_i rest' hp
          obtain ⟨u, rfl⟩ := isProbablePrime_suffix hp
          exact ⟨⟨sk ++ r :: u, by simp⟩, found _ _⟩
        · trivial
        · rename_i rest' hp
          obtain ⟨u, rfl⟩ := isProbablePrime_suffix hp
          have := ih (count + 1) rest'
          change allowedProgress _ _ (searchLoop d n rounds limit fuel (count + 1) rest')
          revert this
          cases searchLoop d n rounds limit fuel (count + 1) rest' with
          | ended r' rest'' =>
            rintro ⟨⟨v, rfl⟩, h⟩
            exact ⟨⟨sk ++ r :: (u ++ v), by simp⟩, h⟩
          | waiting w => exact fun _ => trivial

/-- A search after some consumed values is still a suffix search. -/
theorem allowedProgress_append {i : Instr} {ds : List Nat} (used : List Nat) {p : Progress}
    (h : allowedProgress i ds p) : allowedProgress i (used ++ ds) p := by
  cases p with
  | ended r rest =>
    obtain ⟨⟨v, rfl⟩, h⟩ := h
    exact ⟨⟨used ++ v, by simp⟩, h⟩
  | waiting w => trivial

theorem resumeProbe_allowed (d : Reg) (bits : Imm) (n rounds limit count p left : Nat) (ds : List Nat) :
    allowedProgress (.primegen d bits) ds (resumeProbe d n rounds limit count p left ds) := by
  unfold resumeProbe
  split
  · rename_i rest hv
    exact ⟨mrRounds_suffix hv,
      allowedResult_ok ⟨by simp [foundPrime, destinations], fun _ => rfl, by simp [writesCount]⟩⟩
  · trivial
  · rename_i rest hv
    obtain ⟨u, rfl⟩ := mrRounds_suffix hv
    exact allowedProgress_append u (searchLoop_allowed ..)

theorem primegenBody_allowed (d : Reg) (bits : Imm) (c : Config) (f : Flight) (ds : List Nat) :
    allowedProgress (.primegen d bits) ds (primegenBody d bits c f ds) := by
  unfold primegenBody
  split
  · exact ⟨⟨[], rfl⟩, allowedResult_error (by simp [raises])⟩
  · cases f.work with
    | start => exact searchLoop_allowed ..
    | rounds _ => exact searchLoop_allowed ..
    | search count => exact searchLoop_allowed ..
    | probe count p left => exact resumeProbe_allowed ..

theorem run_result {i : Instr} {body : Config → Snapshot → Except CmdError Commit} {s t : State}
    (h : run body s = .next t) (hb : ∀ c p, allowedResult i (body c p)) :
    (s.flight = none ∧ t = s) ∨
    ∃ f r, s.flight = some f ∧ t = complete r s ∧ allowedResult i r := by
  obtain h | ⟨f, hf, rfl⟩ := run_cases h
  · exact .inl h
  · exact .inr ⟨f, _, hf, rfl, hb _ _⟩

theorem runDrawing_result {i : Instr} {body : Config → Flight → List Nat → Progress} {s t : State}
    (h : runDrawing body s = .next t) (hb : ∀ c f ds, allowedProgress i ds (body c f ds)) :
    (s.flight = none ∧ t = s) ∨
    (∃ f r rest, s.flight = some f ∧ t = complete r { s with rng := rest } ∧
      (∃ used, s.rng = used ++ rest) ∧ allowedResult i r) ∨
    ∃ f w, s.flight = some f ∧ t = { s with rng := [], flight := some { f with work := w } } := by
  obtain h | ⟨f, r, rest, hf, he, rfl⟩ | ⟨f, w, hf, -, rfl⟩ := runDrawing_cases h
  · exact .inl h
  · have := hb s.cfg f s.rng
    rw [he] at this
    exact .inr (.inl ⟨f, r, rest, hf, rfl, this.1, this.2⟩)
  · exact .inr (.inr ⟨f, w, hf, rfl⟩)

/-- The results of a command that draws nothing are allowed ones. -/
theorem exec_nondrawing {i : Instr} {s t : State} (hi : draws i = false) (h : exec i s = .next t) :
    (s.flight = none ∧ t = s) ∨ ∃ f r, s.flight = some f ∧ t = complete r s ∧ allowedResult i r := by
  have moduli : ∀ {opw p q : Nat} {e : CmdError}, checkModuli opw p q = .error e →
      e = .invalidModulus ∨ e = .overflow := by
    intro opw p q e h
    unfold checkModuli at h
    repeat' split at h
    all_goals cases h
    all_goals simp
  cases i with
  | mov d a =>
    simp only [exec, execMov] at h
    exact run_result h fun _ _ => allowedResult_ok ⟨by simp [Commit.reg, destinations], fun _ => rfl, fun _ => rfl⟩
  | ldi d imm =>
    simp only [exec, execLdi] at h
    exact run_result h fun _ _ => allowedResult_ok ⟨by simp [Commit.reg, destinations], fun _ => rfl, fun _ => rfl⟩
  | mul d a b =>
    simp only [exec, execMul] at h
    refine run_result h fun _ _ => allowedResult_reg (by simp [destinations]) fun e he => ?_
    unfold mulValue at he
    split at he <;> cases he
    simp [raises]
  | modmul d a b c =>
    simp only [exec, execModmul] at h
    refine run_result h fun _ _ => allowedResult_reg (by simp [destinations]) fun e he => ?_
    unfold modmulValue at he
    split at he <;> cases he
    simp [raises]
  | modpow d a b c =>
    simp only [exec, execModpow] at h
    refine run_result h fun _ _ => allowedResult_reg (by simp [destinations]) fun e he => ?_
    unfold modpowValue at he
    split at he <;> cases he
    simp [raises]
  | modinv d a c =>
    simp only [exec, execModinv] at h
    refine run_result h fun _ _ => allowedResult_reg (by simp [destinations]) fun e he => ?_
    unfold modinvValue at he
    repeat' split at he
    all_goals cases he
    all_goals simp [raises]
  | fitw d a width =>
    simp only [exec, execFitw] at h
    refine run_result h fun _ _ => allowedResult_reg (by simp [destinations]) fun e he => ?_
    unfold fitwValue at he
    split at he <;> cases he
    simp [raises]
  | mrtest a => cases hi
  | primegen d bits => cases hi
  | crt d a b c e =>
    simp only [exec, execCrt] at h
    refine run_result h fun _ _ => allowedResult_reg (by simp [destinations]) fun e he => ?_
    unfold crtValue at he
    repeat' split at he
    all_goals cases he
    all_goals simp [raises]
  | sqrt4 d a c e =>
    simp only [exec, execSqrt4] at h
    refine run_result h fun cf p => ?_
    split
    · rename_i hd
      exact allowedResult_error (by simp [raises, Nat.not_le.2 hd])
    · rename_i hd
      unfold sqrt4Value
      cases hm : checkModuli cf.opw (p.src c) (p.src e) with
      | ok u => exact allowedResult_ok ⟨by simp [rootsCommit, destinations], fun _ => rfl, fun _ => rfl⟩
      | error e =>
        refine allowedResult_error ?_
        have := moduli hm
        simp only [raises, Nat.not_lt.1 hd, if_true]
        aesop
  | transform d a c e =>
    simp only [exec, execTransform] at h
    refine run_result h fun cf p => ?_
    unfold transformValue
    split
    · exact allowedResult_error (by simp [raises])
    · cases hm : checkModuli cf.opw (p.src c) (p.src e) with
      | ok u => exact allowedResult_ok ⟨by simp [transformCommit, destinations], by simp [writesRes], fun _ => rfl⟩
      | error e =>
        refine allowedResult_error ?_
        have := moduli hm
        simp only [raises]
        aesop

/-- Everything a command can do (R34, R46, R52): with none in flight nothing; else it completes with an allowed
result, having consumed delivered values from the front if it draws; or, if it draws, it waits. -/
theorem exec_cases {i : Instr} {s t : State} (h : exec i s = .next t) :
    (s.flight = none ∧ t = s) ∨
    (∃ f r rest, s.flight = some f ∧ t = complete r { s with rng := rest } ∧
      (∃ used, s.rng = used ++ rest) ∧ (draws i = false → rest = s.rng) ∧ allowedResult i r) ∨
    ∃ f w, s.flight = some f ∧ draws i = true ∧
      t = { s with rng := [], flight := some { f with work := w } } := by
  cases hi : draws i
  · obtain h | ⟨f, r, hf, ht, hr⟩ := exec_nondrawing hi h
    · exact .inl h
    · exact .inr (.inl ⟨f, r, s.rng, hf, ht, ⟨[], rfl⟩, fun _ => rfl, hr⟩)
  · have : (s.flight = none ∧ t = s) ∨
        (∃ f r rest, s.flight = some f ∧ t = complete r { s with rng := rest } ∧
          (∃ used, s.rng = used ++ rest) ∧ allowedResult i r) ∨
        ∃ f w, s.flight = some f ∧ t = { s with rng := [], flight := some { f with work := w } } := by
      cases i with
      | mrtest a =>
        simp only [exec, execMrtest] at h
        exact runDrawing_result h fun _ f ds => mrtestBody_allowed a f ds
      | primegen d bits =>
        simp only [exec, execPrimegen] at h
        exact runDrawing_result h fun c f ds => primegenBody_allowed d bits c f ds
      | _ => cases hi
    obtain h | ⟨f, r, rest, hf, ht, hu, hr⟩ | ⟨f, w, hf, ht⟩ := this
    · exact .inl h
    · exact .inr (.inl ⟨f, r, rest, hf, ht, hu, by simp, hr⟩)
    · exact .inr (.inr ⟨f, w, hf, rfl, ht⟩)

end Sys2Proof.Machine
end

