-- ==== Sys2Proof/Laws/PerInstr.lean ====
section
/-! SUPPORT. The family Opcode, instruction by instruction: the encoder writes the opcode of the command's row
into w[31:24] (R100, R104). -/

namespace Sys2Proof.Laws.Opcode

open Sys2Proof

/-- The OP field of the command's word is the opcode its row has in R104. -/
def Statement (i : Instr) : Prop := opField (encode i) = opcode i.mnemonic

theorem opField_formatR (op : Nat) (d a b c e : Reg) (h : op < 256) :
    opField (formatR op d a b c e) = op := by
  simp only [opField, field, formatR, BitVec.toNat_ofNat]
  omega

theorem opField_formatI (op : Nat) (d a : Reg) (imm : Imm) (h : op < 256) :
    opField (formatI op d a imm.toNat) = op := by
  have := imm.isLt
  simp only [opField, field, formatI, BitVec.toNat_ofNat]
  omega

theorem mov (d a : Reg) : Statement (.mov d a) := opField_formatR 0x01 d a 0 0 0 (by decide)
theorem ldi (d : Reg) (imm : Imm) : Statement (.ldi d imm) := opField_formatI 0x02 d 0 imm (by decide)
theorem mul (d a b : Reg) : Statement (.mul d a b) := opField_formatR 0x03 d a b 0 0 (by decide)
theorem modmul (d a b c : Reg) : Statement (.modmul d a b c) := opField_formatR 0x10 d a b c 0 (by decide)
theorem modpow (d a b c : Reg) : Statement (.modpow d a b c) := opField_formatR 0x11 d a b c 0 (by decide)
theorem modinv (d a c : Reg) : Statement (.modinv d a c) := opField_formatR 0x12 d a 0 c 0 (by decide)
theorem fitw (d a : Reg) (width : Imm) : Statement (.fitw d a width) :=
  opField_formatI 0x13 d a width (by decide)
theorem mrtest (a : Reg) : Statement (.mrtest a) := opField_formatR 0x20 0 a 0 0 0 (by decide)
theorem primegen (d : Reg) (bits : Imm) : Statement (.primegen d bits) :=
  opField_formatI 0x30 d 0 bits (by decide)
theorem crt (d a b c e : Reg) : Statement (.crt d a b c e) := opField_formatR 0x40 d a b c e (by decide)
theorem sqrt4 (d a c e : Reg) : Statement (.sqrt4 d a c e) := opField_formatR 0x41 d a 0 c e (by decide)
theorem transform (d a c e : Reg) : Statement (.transform d a c e) :=
  opField_formatR 0x50 d a 0 c e (by decide)

end Sys2Proof.Laws.Opcode
end

