-- ==== Sys2Proof/Tests/Slice0.lean ====
section
/-! SUPPORT. Tests of the model against the spec's own examples and vectors (30_encoding R124, 95_test_vectors),
the WellFormed smoke test, and for every statement with hypotheses a concrete state and operands that meet
them. -/

namespace Sys2Proof.Tests

open Sys2Proof Sys2Proof.Machine

-- One theorem at a time: checked side by side, their threads' stacks add up past the check's memory limit.
set_option Elab.async false

/-! ## WellFormed -/

/-- SQRT4 with D = 13 is ill-formed (R104, R105); D = 12 is the largest legal. -/
theorem test_wf_refuses_sqrt4_d13 : (Instr.sqrt4 13 5 0 1).wf = false ∧ (Instr.sqrt4 12 5 0 1).wf = true := by
  decide

/-! ## Decoding: words written out from the encoding (R101, R102, R104; vectors L2.1) -/

/-- MOV B15, B9: OP 01, D f, A 9. -/
theorem test_decode_mov : decode 0x01F90000 = .ok (.mov 15 9) := by decide +kernel
/-- LDI B1, 65535 (L2.1). -/
theorem test_decode_ldi : decode 0x0210FFFF = .ok (.ldi 1 0xFFFF) := by decide +kernel
/-- MUL B3, B0, B1 (R124). -/
theorem test_decode_mul : decode 0x03301000 = .ok (.mul 3 0 1) := by decide +kernel
/-- MODMUL B5, B2, B4, B3: D 5, A 2, B 4, C 3. -/
theorem test_decode_modmul : decode 0x10524300 = .ok (.modmul 5 2 4 3) := by decide +kernel
/-- MODPOW B3, B0, B1, B2 (R124). -/
theorem test_decode_modpow : decode 0x11301200 = .ok (.modpow 3 0 1 2) := by decide +kernel
/-- MODINV B2, B0, B1 (R124). -/
theorem test_decode_modinv : decode 0x12200100 = .ok (.modinv 2 0 1) := by decide +kernel
/-- FITW B15, B15, 65535 (L2.1). -/
theorem test_decode_fitw : decode 0x13FFFFFF = .ok (.fitw 15 15 0xFFFF) := by decide +kernel
/-- MRTEST B1 (L2.1). -/
theorem test_decode_mrtest : decode 0x20010000 = .ok (.mrtest 1) := by decide +kernel
/-- PRIMEGEN B7, 2048: D 7, IMM16 0800. -/
theorem test_decode_primegen : decode 0x30700800 = .ok (.primegen 7 2048) := by decide +kernel
/-- CRT B4, B0, B1, B2, B3 (L2.1). -/
theorem test_decode_crt : decode 0x40401230 = .ok (.crt 4 0 1 2 3) := by decide +kernel
/-- SQRT4 B12, B5, B0, B1 (L2.1). -/
theorem test_decode_sqrt4 : decode 0x41C50010 = .ok (.sqrt4 12 5 0 1) := by decide +kernel
/-- TRANSFORM B4, B2, B0, B1 (L2.1). -/
theorem test_decode_transform : decode 0x50420010 = .ok (.transform 4 2 0 1) := by decide +kernel

/-- The illegal words of L2.1, each by its reason. -/
theorem test_decode_illegal :
    [0x00000000, 0xFF000000, 0x04000000].map (fun w => decode w) =
      List.replicate 3 (.error .unassignedOpcode) ∧
    [0x01100001, 0x01101000, 0x02010005, 0x03301100, 0x10522310, 0x12201100, 0x20100000, 0x30010008,
      0x40401231, 0x50421010].map (fun w => decode w) = List.replicate 10 (.error .reservedField) ∧
    decode 0x41D50010 = .error .sqrt4Destination := by decide +kernel

/-- The decoder reads a table row's word, and no longer one. -/
theorem test_decodeTableWord :
    decodeTableWord 32 0x01000000 = some (.mov 0 0) ∧ decodeTableWord 40 0x01000000 = none := by decide +kernel

/-! ## The assembler (R120–R123) -/

/-- Case-insensitive mnemonic, comment, hexadecimal immediate, pseudo-instruction. -/
theorem test_assemble_lines :
    assemble "  sqr B5,B2, B3 ; c = m*m mod n".toList = .ok 0x10522300 ∧
    assemble "LDI B1, 0xFFFF".toList = .ok 0x0210FFFF ∧
    assemble "CLR B2".toList = .ok 0x02200000 := by decide +kernel

/-- The rejections of R122. -/
theorem test_assemble_rejects :
    assemble "MOV B16, B0".toList = .error .badRegister ∧
    assemble "LDI B1, 65536".toList = .error .badImmediate ∧
    assemble "SQRT4 B13, B5, B0, B1".toList = .error .sqrt4Destination ∧
    assemble "MRTEST B0, B1".toList = .error .operandCount ∧
    assemble "NOP".toList = .error .unknownMnemonic := by decide +kernel

/-! ## Commands, one step each -/

/-- `i` just accepted on reset with these registers and RNG deliveries. -/
def issued (i : Instr) (xs : List (Reg × Nat)) (ds : List Nat) : State :=
  accept (encode i) { State.reset with x := writeRegs State.reset.x xs, rng := ds }

/-- A view of the next state of one step. -/
def after {α : Type} (s : State) (f : State → α) : Option α :=
  match step s with
  | .next t => some (f t)
  | .fault _ => none
  | .refused _ => none

/-- MOV B1, B0 with x0 = 7 (R140). -/
theorem test_mov : after (issued (.mov 1 0) [(0, 7)] []) (fun t => (t.x[(1 : Reg)], statusWord t)) =
    some (7, 0x2) := by decide +kernel

/-- LDI B0, 0xFFFF: no sign extension (L2.2). -/
theorem test_ldi : after (issued (.ldi 0 0xFFFF) [] []) (fun t => t.x[(0 : Reg)]) = some 65535 := by
  decide +kernel

/-- MUL: 7 · 11 = 77 (R142). -/
theorem test_mul : after (issued (.mul 3 0 1) [(0, 7), (1, 11)] []) (fun t => t.x[(3 : Reg)]) = some 77 := by
  decide +kernel

/-- MUL: 2^1024 · 2^1024 overflows and x3 is unchanged; 2^2047 · 1 fits (L2.2). -/
theorem test_mul_overflow :
    after (issued (.mul 3 0 1) [(0, 2 ^ 1024), (1, 2 ^ 1024), (3, 5)] [])
      (fun t => (t.x[(3 : Reg)], statusWord t, errcodeWord t)) = some (5, 0x6, 4) ∧
    mulValue 2048 (2 ^ 2047) 1 = .ok (2 ^ 2047) ∧ mulValue 2048 (2 ^ 2047) 2 = .error .overflow := by
  decide +kernel

/-- MODMUL vectors (L2.3), the exact 4094-bit product among them. -/
theorem test_modmul :
    modmulValue 123 456 789 = .ok 69 ∧ modmulValue 7 9 10 = .ok 3 ∧ modmulValue 5 5 1 = .ok 0 ∧
    modmulValue (2 ^ 2047) (2 ^ 2047) (2 ^ 2048 - 1) = .ok (2 ^ 2046) ∧
    modmulValue 3 4 0 = .error .invalidArgument := by decide +kernel

/-- SQR B2, B2, B3: a source that is also the destination (L2.3). -/
theorem test_modmul_overlap :
    after (issued (.modmul 2 2 2 3) [(2, 20), (3, 77)] []) (fun t => t.x[(2 : Reg)]) = some 15 := by
  decide +kernel

/-- MODPOW vectors (L2.4). -/
theorem test_modpow :
    modpowValue 4 13 497 = .ok 445 ∧ modpowValue 15 3 11 = .ok 9 ∧ modpowValue 2 10 1024 = .ok 0 ∧
    modpowValue 0 0 5 = .ok 1 ∧ modpowValue 7 0 1 = .ok 0 ∧ modpowValue 2 3 0 = .error .invalidArgument := by
  decide +kernel

/-- MODPOW reads base, exponent and modulus from A, B and C (R162). -/
theorem test_modpow_fields :
    after (issued (.modpow 4 0 1 2) [(0, 4), (1, 13), (2, 497)] []) (fun t => t.x[(4 : Reg)]) = some 445 := by
  decide +kernel

/-- MODINV vectors (L2.5). -/
theorem test_modinv :
    modinvValue 3 11 = .ok 4 ∧ modinvValue 17 3120 = .ok 2753 ∧ modinvValue 11 7 = .ok 2 ∧
    modinvValue 5 1 = .ok 0 ∧ modinvValue 0 7 = .error .noInverseExists ∧
    modinvValue 3 0 = .error .invalidArgument := by decide +kernel

/-- The source's modinverse(6, 9): NoInverseExists, marker unchanged (L1.2, P2 step 4). -/
theorem test_modinv_fails :
    after (issued (.modinv 2 0 1) [(0, 6), (1, 9), (2, 85)] [])
      (fun t => (t.x[(2 : Reg)], statusWord t, errcodeWord t)) = some (85, 0x6, 3) := by decide +kernel

/-- FITW vectors (L2.6). -/
theorem test_fitw :
    fitwValue 255 1 = .ok 255 ∧ fitwValue 256 1 = .error .overflow ∧ fitwValue 0 0 = .ok 0 ∧
    fitwValue 1 0 = .error .overflow ∧ fitwValue (2 ^ 2048 - 1) 256 = .ok (2 ^ 2048 - 1) ∧
    fitwValue (2 ^ 2048 - 1) 255 = .error .overflow := by decide +kernel

/-- FITW B3, B2, 17 admits a 129-bit value (P4 step 4). -/
theorem test_fitw_copies :
    after (issued (.fitw 3 2 17) [(2, 2 ^ 128 + 25)] []) (fun t => t.x[(3 : Reg)]) = some (2 ^ 128 + 25) := by
  decide +kernel

/-- MRTEST vectors with the draws they leave (L2.7). -/
theorem test_isProbablePrime :
    isProbablePrime 1 12 [2] = .answer false [2] ∧ isProbablePrime 31 12 [2] = .answer true [2] ∧
    isProbablePrime 561 1 [2] = .answer false [2] ∧ isProbablePrime 37 1 [35] = .answer true [] ∧
    isProbablePrime 4033 0 [3] = .answer true [3] ∧ isProbablePrime 4033 2 [2, 3] = .answer false [] ∧
    isProbablePrime 4033 2 [3, 2] = .answer false [2] ∧
    isProbablePrime 3215031751 4 [2, 3, 5, 7] = .answer true [] ∧
    isProbablePrime 3215031751 1 [11] = .answer false [] := by decide +kernel

/-- MRTEST of 4033 with one round and witness 2: RES = 1; with nothing delivered it waits, BUSY = 1 (R200, P3). -/
theorem test_mrtest :
    after { issued (.mrtest 1) [(1, 4033)] [2] with
        flight := some ⟨⟨writeRegs State.reset.x [(1, 4033)], 1, 0⟩, .start⟩ }
      (fun t => (t.res, statusWord t)) = some (1, 0x2) ∧
    after (issued (.mrtest 1) [(1, 4033)] []) (fun t => (t.res, statusWord t)) = some (0, 0x1) := by
  decide +kernel

/-- PRIMEGEN vectors (L2.8): a candidate on the fast path, a second candidate, the cap, the range check. -/
theorem test_primegen_search :
    search 0 8 2 0 0 [0x10, 0x00, 2, 3] = .ended (.ok (foundPrime 0 131 2)) [] ∧
    search 0 8 2 0 0 [0x40, 0x44, 2, 3] = .ended (.ok (foundPrime 0 199 2)) [] ∧
    search 0 4 12 0 0 [0x4, 0x0] = .ended (.ok (foundPrime 0 11 2)) [] ∧
    search 0 8 2 2 0 [0x10, 0x40] = .ended (.error .generationTimeout) [] := by
  refine ⟨?_, ?_, ?_, ?_⟩ <;> rfl

/-- PRIMEGEN B0, 2 always gives 3 (R230); PRIMEGEN B0, 2049 is InvalidArgument with OPW = 2048, no draw (L2.8). -/
theorem test_primegen :
    after (issued (.primegen 0 2) [] [1]) (fun t => (t.x[(0 : Reg)], t.retryCount, t.rng)) = some (3, 1, []) ∧
    after (issued (.primegen 0 2049) [] [1]) (fun t => (errcodeWord t, t.rng)) = some (1, [1]) := by
  decide +kernel

/-- CRT vectors (L2.9), its three errors in order. -/
theorem test_crt :
    crtValue 2048 1 9 7 11 = .ok 64 ∧ crtValue 2048 9 1 7 11 = .ok 23 ∧ crtValue 2048 5 3 1 7 = .ok 3 ∧
    crtValue 2048 3 4 4 9 = .ok 31 ∧ crtValue 2048 1 2 0 7 = .error .invalidArgument ∧
    crtValue 2048 1 2 6 9 = .error .invalidModulus ∧
    crtValue 2048 1 2 (2 ^ 1024 + 1) (2 ^ 1024 + 3) = .error .overflow := by decide +kernel

/-- CRT B7, B12, B15, B0, B1 (P1 step 10). -/
theorem test_crt_fields :
    after (issued (.crt 7 12 15 0 1) [(12, 1), (15, 9), (0, 7), (1, 11)] []) (fun t => t.x[(7 : Reg)]) =
      some 64 := by decide +kernel

/-- SQRT4 vectors (L2.10), degenerate and refused inputs among them. -/
theorem test_sqrt4 :
    sqrt4Value 2048 15 7 11 = .ok ⟨64, 13, 20, 57⟩ ∧ sqrt4Value 2048 49 7 11 = .ok ⟨70, 7, 70, 7⟩ ∧
    sqrt4Value 2048 3 7 11 = .ok ⟨16, 61, 5, 72⟩ ∧ sqrt4Value 2048 4 15 7 = .ok ⟨16, 89, 44, 61⟩ ∧
    sqrt4Value 2048 15 7 7 = .error .invalidModulus ∧ sqrt4Value 2048 15 0 11 = .error .invalidModulus ∧
    sqrt4Value 2048 1 (2 ^ 1024 + 3) (2 ^ 1024 + 7) = .error .overflow := by decide +kernel

/-- SQRT4 B8, B5, B0, B1 writes x8..x11 (P1 step 11). -/
theorem test_sqrt4_destinations :
    after (issued (.sqrt4 8 5 0 1) [(5, 15), (0, 7), (1, 11)] [])
      (fun t => [t.x[(8 : Reg)], t.x[(9 : Reg)], t.x[(10 : Reg)], t.x[(11 : Reg)]]) =
      some [64, 13, 20, 57] := by decide +kernel

/-- TRANSFORM vectors (L2.11): 0x60 by C1, and the error order. -/
theorem test_transform :
    transformValue 2048 20 7 11 = .ok (0x60, 1) ∧ transformValue 2048 100 19 23 = .ok (128, 2) ∧
    transformValue 2048 123456 1019 1031 = .ok (8192, 3) ∧ transformValue 2048 77 7 11 = .error .invalidArgument ∧
    transformValue 2048 60 3 3 = .error .invalidArgument ∧ transformValue 2048 5 3 3 = .error .invalidModulus ∧
    transformValue 2048 5 (2 ^ 1024 + 3) (2 ^ 1024 + 7) = .error .overflow := by decide +kernel

/-- TRANSFORM B4, B2, B0, B1 (P1 step 12). -/
theorem test_transform_result :
    after (issued (.transform 4 2 0 1) [(2, 20), (0, 7), (1, 11)] []) (fun t => (t.x[(4 : Reg)], t.res)) =
      some (96, 1) := by decide +kernel

/-! ## The window, the RNG port and reset -/

/-- A state with one turn on the agenda. -/
def withTurn (t : Turn) (s : State) : State := { s with agenda := [t] }

/-- WR ROUNDS and a limb write while BUSY = 1: dropped, COLL = 1 (P3 steps 12, 13). -/
theorem test_busy_writes :
    after (withTurn (.host (.write 0x01C 4 (toLanes 5))) (issued (.mrtest 1) [(1, 4033)] []))
      (fun t => (t.rounds, statusWord t)) = some (12, 0x9) ∧
    after (withTurn (.host (.write 0x1400 4 (toLanes 7))) (issued (.mrtest 1) [(1, 4033)] []))
      (fun t => (t.x[(1 : Reg)], statusWord t)) = some (4033, 0x9) := by decide +kernel

/-- CTRL write of 0x3 with a command in flight: the reset state, IRQ_EN = 0, the delivery kept (L2.12). -/
theorem test_soft_reset :
    after (withTurn (.host (.write 0x008 4 (toLanes 3))) (issued (.mrtest 1) [(1, 4033)] [9]))
      (fun t => (t.x[(1 : Reg)], statusWord t, ctrlWord t, t.rng)) = some (0, 0, 0, [9]) := by decide +kernel

/-- Limb 1 of B1 at BASE + 0x1404 (R41, R84), here with BASE = 0x8000. -/
theorem test_limb_write :
    after (withTurn (.host (.write 0x9404 4 (toLanes 7))) { State.reset with cfg := ⟨64, 0x8000⟩ })
      (fun t => t.x[(1 : Reg)]) = some (7 * 2 ^ 32) := by decide +kernel

/-- The byte lanes (R73): ID 0x52414249 reads with 0x49 at its lowest byte address; lanes 07 00 00 01 write
0x01000007. -/
theorem test_byte_lanes :
    after (withTurn (.host (.read 0x000 4)) State.reset) (fun t => t.resp) =
      some (some (.data #v[0x49, 0x42, 0x41, 0x52])) ∧
    after (withTurn (.host (.write 0x020 4 #v[0x07, 0x00, 0x00, 0x01])) State.reset) (fun t => t.retryLimit) =
      some 0x01000007 := by decide +kernel

/-- A 16-bit access is a bus error; limb 2 of a 64-bit register reads 0; PARAM reads 0x00100040 (L2.12, R42). -/
theorem test_reads :
    after (withTurn (.host (.read 0x00C 2)) State.reset) (fun t => t.resp) = some (some .busError) ∧
    readOffset { State.reset with cfg := ⟨64, 0⟩ } 0x1008 = 0 ∧ readOffset State.reset 0x004 = 0x00100040 := by
  decide +kernel

/-- STATUS write of 0x2 clears DONE, so irq falls; of 0x5 it changes nothing (L2.12). -/
theorem test_status_write :
    irq (writeOffset { State.reset with done := true, irqEn := true } 0x00C 0x2) = false ∧
    writeOffset { State.reset with done := true, err := true } 0x00C 0x5 =
      { State.reset with done := true, err := true } := by decide +kernel

/-- The word placed by withFetchWord is executed by the very next step. -/
theorem test_withFetchWord :
    after (State.reset.withFetchWord 32 0x0210000B) (fun t => t.x[(1 : Reg)]) = some 11 := by decide +kernel

/-- FWB(437, 2) = 0x01 0xB5 and back (R16). -/
theorem test_fwb : fwb 437 2 = .ok [0x01, 0xB5] ∧ fwd [0x01, 0xB5] = 437 := by decide +kernel

/-! ## Witnesses: hypotheses of the statements, met -/

/-- An idle, a busy, a waiting and a held machine that meet the invariant. -/
def idleState : State := State.reset
def busyState : State := issued (.mov 1 0) [(0, 7)] []
def heldState : State := { State.reset with rst := true }

theorem wit_DecodeInvertsEncode : (Instr.sqrt4 12 5 0 1).wf = true := by decide
theorem wit_EncodeInvertsDecode : decode 0x41C50010 = .ok (.sqrt4 12 5 0 1) := by decide +kernel
theorem wit_DecodeIsTheMatchMaskTable : fitsRow .sqrt4 0x41C50010 ∧ (dField 0x41C50010).val ≤ 12 := by
  decide +kernel
theorem wit_IllegalWords_idle : idleState.busy = false := by decide +kernel
theorem wit_IllegalWords_busy :
    ∃ s : State, ∃ r, s.rst = false ∧ s.busy = true ∧ decode s.cmd = .error r :=
  ⟨accept 0xFF000000 State.reset, .unassignedOpcode, by decide +kernel⟩
theorem wit_PseudoInstructionsExpand :
    ∃ f, (issued (.mul 3 0 1) [(0, 7), (1, 11)] []).flight = some f ∧ f.snap.x[(1 : Reg)] ≠ 0 ∧
      f.snap.x[(0 : Reg)] * f.snap.x[(1 : Reg)] < 2 ^ State.reset.cfg.opw := ⟨_, rfl, by decide +kernel⟩
theorem wit_AssemblerEmitsNoIllegalWord :
    assemble "MOV B1, B0".toList = .ok 0x01100000 ∧
    assembleInstr "SQRT4 B12, B5, B0, B1".toList = .ok (.sqrt4 12 5 0 1) := by decide +kernel
theorem wit_StepRunsTheDecodedCommand :
    busyState.rst = false ∧ busyState.busy = true ∧ decode busyState.cmd = .ok (.mov 1 0) ∧
    busyState.agenda = [] ∧ (withTurn .engine busyState).agenda = [.engine] ∧
    (withTurn (.rng 5) busyState).agenda = [.rng 5] := by decide +kernel
theorem wit_IssuedCommandIsExecuted :
    idleState.cfg.wf ∧ idleState.rst = false ∧ idleState.busy = false ∧ decode 0x01100000 = .ok (.mov 1 0) := by
  decide +kernel
theorem wit_StepStopsOnlyOnAHostAccess :
    step (withTurn (.host (.read 0x8000 4)) idleState) = .fault (.outsideWindow 0x8000) ∧
    step (withTurn (.host (.read 0 4)) heldState) = .refused .accessDuringReset ∧
    (∃ t, step (withTurn (.host (.read 0x7FFC 4)) idleState) = .next t) := ⟨rfl, rfl, _, rfl⟩
theorem wit_Resets : idleState.cfg.wf ∧ idleState.rst = false ∧ (0x2 : Word).getLsbD 1 = true := by decide +kernel
theorem wit_RstInputHoldsTheEngine : heldState.Inv ∧ heldState.rst = true :=
  ⟨⟨by decide, by decide +kernel, by decide, by decide, fun _ h => (by cases h), fun _ h => (by cases h),
    fun _ => rfl⟩, rfl⟩
theorem wit_StepKeepsTheInvariant : busyState.Inv ∧ ∃ t, step busyState = .next t :=
  ⟨⟨by decide +kernel, by decide +kernel, by decide +kernel, by decide +kernel,
    fun _ h => (by cases h; rfl), fun _ h => (by cases h; trivial), fun h => (by cases h)⟩, _, rfl⟩
theorem wit_ReadsHaveNoSideEffect : (∃ t, hostAccess (.read 0x018 4) busyState = .next t) ∧
    busyState.cfg.wf ∧ busyState.rst = false ∧ 0x7FFC < 0x8000 ∧ 0x7FFC % 4 = 0 :=
  ⟨⟨_, rfl⟩, by decide, rfl, by decide, by decide⟩
/-- ERRCODE None, and each of the six errors. -/
theorem wit_StatusFieldsAndClears : idleState.errcode = none ∧
    ∀ e, (failedWith e busyState).errcode = some e := ⟨rfl, fun _ => rfl⟩
theorem wit_UnadmittedAccesses :
    busyState.rst = false ∧ busyState.cfg.base ≤ 0x7FFF ∧ 0x7FFF < busyState.cfg.base + 0x8000 ∧
    ((4 : Nat) ≠ 4 ∨ 0x7FFF % 4 ≠ 0) ∧ ((8 : Nat) ≠ 4 ∨ 0x7FF8 % 4 ≠ 0) := by decide +kernel
theorem wit_CmdWrite : idleState.cfg.wf ∧ idleState.rst = false ∧ idleState.busy = false ∧
    busyState.cfg.wf ∧ busyState.rst = false ∧ busyState.busy = true ∧
    decode 0 = .error .unassignedOpcode := by decide +kernel
theorem wit_CtrlRegisterFields : (0x1 : Word).getLsbD 1 = false ∧ (0x3 : Word).getLsbD 1 = true := by decide
/-- The last limb, the first spare word and the last spare word of a 2048-bit register; a waiting command. -/
theorem wit_OperandWindowLimbs :
    idleState.cfg.wf ∧ idleState.busy = false ∧ busyState.busy = true ∧ 63 < idleState.cfg.opw / 32 ∧
    idleState.cfg.opw / 32 ≤ 64 ∧ (255 : Nat) < 256 ∧
    after (issued (.mrtest 1) [(1, 4033)] []) State.busy = some true := by decide +kernel
theorem wit_LoadedOperandReadsBack :
    idleState.cfg.wf ∧ idleState.rst = false ∧ idleState.busy = false ∧
    idleState.x[(3 : Reg)] < 2 ^ idleState.cfg.opw ∧ 2 ^ 2048 - 1 < 2 ^ idleState.cfg.opw := by decide +kernel
theorem wit_IdAndParam : idleState.cfg.wf ∧ idleState.cfg.opw = 2048 := by decide
theorem wit_IgnoredAndDroppedWrites :
    busyState.busy = true ∧ 0x028 % 4 = 0 ∧ 0x0FFC % 4 = 0 ∧ 0x5000 % 4 = 0 ∧ 0x7FFC % 4 = 0 ∧
    63 < busyState.cfg.opw / 32 := by decide +kernel
theorem wit_Irq : (0x2 : Word).getLsbD 1 = true ∧ (0 : Word).getLsbD 1 = false ∧ (0 : Word).getLsbD 0 = false := by
  decide
theorem wit_RoundsAndRetryLimit : idleState.busy = false := by decide +kernel
/-- A command that completes, one that fails, one that waits. -/
theorem wit_Commands :
    after busyState State.busy = some false ∧
    after (issued (.modinv 2 0 1) [(0, 6), (1, 9)] []) (fun t => (t.busy, t.errcode)) =
      some (false, some .noInverseExists) ∧
    after (issued (.mrtest 1) [(1, 4033)] []) (fun t => (t.busy, t.rng)) = some (true, []) ∧
    busyState.busy = true ∧ busyState.errcode = none ∧ busyState.err = false ∧ draws (.mov 1 0) = false ∧
    Instr.mnemonic (.mov 1 0) ∈ [Mnemonic.mov, .ldi, .mrtest] := by decide +kernel
/-- Two states that agree on the parameters, the command in flight and the deliveries. -/
theorem wit_CommandsDependOnSnapshotAndDraws :
    (collide busyState).cfg = busyState.cfg ∧ (collide busyState).flight = busyState.flight ∧
    (collide busyState).rng = busyState.rng ∧ collide busyState ≠ busyState ∧
    ∃ t, exec (.mov 1 0) busyState = .next t := ⟨rfl, rfl, rfl, by decide +kernel, _, rfl⟩
/-- A command in flight with a given snapshot, as the command statements assume it. -/
theorem wit_inFlight : ∃ p k, busyState.flight = some ⟨p, k⟩ ∧ p = takeSnapshot busyState := ⟨_, _, rfl, rfl⟩
/-- MUL at and below the register's width. -/
theorem wit_Mul : 2 ^ 1024 * 2 ^ 1023 < 2 ^ idleState.cfg.opw ∧ 2 ^ idleState.cfg.opw ≤ 2 ^ 1024 * 2 ^ 1024 := by
  decide +kernel
theorem wit_Modulus : 0 < (issued (.modpow 3 0 1 2) [(2, 1)] []).x[(2 : Reg)] ∧
    (issued (.modpow 3 0 1 2) [] []).x[(2 : Reg)] = 0 := by decide +kernel
theorem wit_Modinv : Nat.gcd 3 11 = 1 ∧ Nat.gcd 5 1 = 1 ∧ Nat.gcd 6 9 ≠ 1 := by decide +kernel
theorem wit_Fitw : 255 < 2 ^ (8 * (1 : Imm).toNat) ∧ 2 ^ (8 * (1 : Imm).toNat) ≤ 256 := by decide +kernel
/-- An accepting test on the fast path and one with no round; a rejecting test on the fast path. -/
theorem wit_MrtestAnswers :
    acceptsWith 31 12 [] ∧ acceptsWith 37 0 [] ∧ rejectsWith 33 12 [] ∧
    (issued (.mrtest 1) [(1, 31)] [5]).accepted ⟨writeRegs State.reset.x [(1, 31)], 12, 0⟩ ∧
    (issued (.mrtest 1) [(1, 31)] [5]).rng = [] ++ [5] := by
  refine ⟨.inl ⟨by decide, rfl⟩, .inr ⟨by decide, ?_, rfl, by simp⟩, .inl ⟨.inr ⟨⟨3, by decide⟩, by decide⟩, rfl⟩,
    rfl, rfl⟩
  rintro ⟨s, hs, hd⟩
  revert hs hd
  have : ∀ s ∈ smallPrimes, ¬ s ∣ 37 := by decide
  exact fun hs hd => this s hs hd
/-- 4033 passes a round with base 2 and fails one with base 3, in the terms of R202: 4032 = 63 · 2^6. -/
theorem wit_MrtestRounds : strongPass 4033 2 ∧ oddPart 4033 = (63, 6) ∧ passesRound 4033 3 = false :=
  ⟨⟨63, 6, by decide +kernel, by decide, .inr ⟨1, by decide, by decide +kernel⟩⟩, by decide +kernel,
    by decide +kernel⟩
theorem wit_MrtestNeverRejectsAPrime :
    (issued (.mrtest 1) [(1, 31)] []).accepted ⟨writeRegs State.reset.x [(1, 31)], 12, 0⟩ ∧ Nat.Prime 31 ∧
    after (issued (.mrtest 1) [(1, 31)] []) State.busy = some false := ⟨rfl, by norm_num, by decide +kernel⟩
theorem wit_PrimegenLengths :
    (1 : Imm).toNat < 2 ∧ idleState.cfg.opw < (2049 : Imm).toNat ∧ 2 ≤ (2 : Imm).toNat ∧
    (2048 : Imm).toNat ≤ idleState.cfg.opw := by decide +kernel
/-- One rejected candidate, 147 = 0x93 from r = 0x10, with RETRY_LIMIT = 1; and an accepted one, 11 from r = 0. -/
theorem wit_PrimegenSearches :
    rejectsWith (0x10 ||| 2 ^ (8 - 1) ||| 3) 12 [] ∧ acceptsWith (0 ||| 2 ^ (4 - 1) ||| 3) 12 [] ∧
    (accept (encode (.primegen 0 8)) { State.reset with retryLimit := 1, rng := [0x10, 5] }).accepted
      ⟨State.reset.x, 12, 1⟩ ∧
    candidateDraws [(0x10, [])] ++ [5] = [0x10, 5] :=
  ⟨.inl ⟨.inr ⟨⟨3, by decide⟩, by decide⟩, rfl⟩, .inl ⟨by decide, rfl⟩, rfl, rfl⟩
theorem wit_PrimegenResult :
    (issued (.primegen 0 2) [] [1]).accepted ⟨State.reset.x, 12, 0⟩ ∧ (issued (.primegen 0 2) [] [1]).err = false ∧
    after (issued (.primegen 0 2) [] [1]) (fun t => (t.busy, t.err)) = some (false, false) :=
  ⟨rfl, rfl, by decide +kernel⟩
/-- One rejected candidate, 15 from r = 4, then the prime 11 from r = 0, under RETRY_LIMIT = 2. -/
theorem wit_PrimegenTakesAPrimeCandidate :
    (accept (encode (.primegen 0 4)) { State.reset with retryLimit := 2, rng := [4, 0] }).accepted
      ⟨State.reset.x, 12, 2⟩ ∧
    rejectsWith (4 ||| 2 ^ ((4 : Imm).toNat - 1) ||| 3) 12 [] ∧ [(4, ([] : List Nat))].length < (2 : Word).toNat ∧
    Nat.Prime (0 ||| 2 ^ ((4 : Imm).toNat - 1) ||| 3) ∧ (0 ||| 2 ^ ((4 : Imm).toNat - 1) ||| 3) ∈ smallPrimes ∧
    4 < 2 ^ (4 : Imm).toNat ∧ [4, 0] = candidateDraws [(4, [])] ++ 0 :: [] :=
  ⟨rfl, .inl ⟨.inr ⟨⟨3, by decide⟩, by decide⟩, rfl⟩, by decide,
    by rw [show (0 ||| 2 ^ ((4 : Imm).toNat - 1) ||| 3) = 11 from rfl]; norm_num, by decide, by decide, rfl⟩
theorem wit_CappedPrimegen :
    (1 : Word) ≠ 0 ∧ (1 : Word).toNat * ((12 : BitVec 16).toNat + 1) ≤ (List.replicate 13 5).length ∧
    ∀ v ∈ List.replicate 13 5, v < 2 ^ ((8 : Imm).toNat - 1) ∧
      (3 ≤ (8 : Imm).toNat → 2 ≤ v ∧ v + 2 ≤ 2 ^ ((8 : Imm).toNat - 1)) := by decide +kernel
theorem wit_Crt : Nat.gcd 6 9 ≠ 1 ∧ Nat.gcd 7 11 = 1 ∧ 7 * 11 < 2 ^ idleState.cfg.opw ∧
    Nat.gcd (2 ^ 1024 + 1) (2 ^ 1024 + 3) = 1 ∧
    2 ^ idleState.cfg.opw ≤ (2 ^ 1024 + 1) * (2 ^ 1024 + 3) := by decide +kernel
/-- The moduli clauses of SQRT4 and TRANSFORM, and both sides of D ≤ 12. -/
theorem wit_Roots : 7 % 4 = 3 ∧ 11 % 4 = 3 ∧ (7 : Nat) ≠ 11 ∧ Nat.gcd 7 11 = 1 ∧ 7 * 11 < 2 ^ idleState.cfg.opw ∧
    (2 ^ 1024 + 3) % 4 = 3 ∧ (2 ^ 1024 + 7) % 4 = 3 ∧ Nat.gcd (2 ^ 1024 + 3) (2 ^ 1024 + 7) = 1 ∧
    2 ^ idleState.cfg.opw ≤ (2 ^ 1024 + 3) * (2 ^ 1024 + 7) ∧ (12 : Reg).val ≤ 12 ∧ 12 < (13 : Reg).val := by
  decide +kernel
theorem wit_RootsSquareToC : Nat.Prime 7 ∧ Nat.Prime 11 ∧ isSquareMod 15 7 ∧ isSquareMod 15 11 ∧ ¬ isSquareMod 3 7 := by
  refine ⟨by norm_num, by norm_num, ⟨1, rfl⟩, ⟨2, rfl⟩, ?_⟩
  rintro ⟨r, hr⟩
  have h : ∀ a < 7, a * a % 7 ≠ 3 % 7 := by decide
  exact h (r % 7) (Nat.mod_lt _ (by norm_num)) (by rw [← Nat.mul_mod]; exact hr)
theorem wit_RootSets : (∃ r, sqrt4Value 2048 49 7 11 = .ok r ∧ 49 % 7 = 0) ∧
    (∃ r, sqrt4Value 2048 22 7 11 = .ok r ∧ 22 % 11 = 0) ∧ (∃ r, sqrt4Value 2048 0 7 11 = .ok r) :=
  ⟨⟨⟨70, 7, 70, 7⟩, by decide +kernel⟩, ⟨⟨22, 55, 55, 22⟩, by decide +kernel⟩, ⟨⟨0, 0, 0, 0⟩, by decide +kernel⟩⟩
theorem wit_Transform :
    after (issued (.transform 4 2 0 1) [(2, 20), (0, 7), (1, 11)] []) (fun t => (t.err, t.x[(4 : Reg)])) =
      some (false, 96) ∧ transformValue 2048 20 7 11 = .ok (96, 1) ∧
    (∃ p' k', (issued (.fitw 6 4 1) [(4, 96)] []).flight = some ⟨p', k'⟩ ∧ p'.x[(4 : Reg)] = 96) :=
  ⟨by decide +kernel, by decide +kernel, _, _, rfl, by decide +kernel⟩
theorem wit_TransformSquareForPrimes : Nat.Prime 7 ∧ Nat.Prime 11 ∧ transformValue 2048 20 7 11 = .ok (96, 1) :=
  ⟨by norm_num, by norm_num, by decide +kernel⟩
theorem wit_Lanes : 0x40 < 2 ^ (8 * 1) ∧ 0x0D < 2 ^ (8 * 1) ∧ 2 ^ (8 * 1) ≤ 256 := by decide
/-- The accepted TRANSFORM with composite p whose square is 0 mod n (log entry 10). -/
theorem wit_TransformSquareAsWritten : transformValue 2048 63 27 7 = .ok (0, 1) ∧ 63 * 63 % (27 * 7) = 0 := by
  decide +kernel

end Sys2Proof.Tests
end

/-! The scope family (00_scope): what one step and one issued command do, completion and resumption over any
command, and the reference encoding FWB/FWD. -/

namespace Sys2Proof.Machine

open Sys2Proof

/-! ## Turns and steps -/

/-- With `rst` released the engine's turn on a decodable word in flight is that command (R17, R106). -/
theorem engineTurn_of_decode {s : State} {i : Instr} (hr : s.rst = false) (hb : s.busy = true)
    (hd : decode s.cmd = .ok i) : engineTurn s = exec i s := by
  simp [engineTurn, execWord, hr, hb, hd]

/-- An idle engine takes no step (R34, R317). -/
theorem engineTurn_of_idle {s : State} (hb : s.busy = false) : engineTurn s = .next s := by
  simp [engineTurn, hb]

theorem step_of_agenda_nil {s : State} (h : s.agenda = []) : step s = engineTurn s := by
  simp only [step, nextTurn, h]

theorem step_of_agenda_cons {s : State} {turn : Turn} {rest : List Turn} (h : s.agenda = turn :: rest) :
    step s = takeTurn turn { s with agenda := rest } := by
  simp only [step, nextTurn, h]

/-- Settles O8: both agenda shapes lead to `engineTurn`, which is decided by BUSY and the decoded word. -/
theorem stepRunsTheDecodedCommand : Obligations.StepRunsTheDecodedCommand := by
  refine ⟨fun s i hr hb hd => ⟨fun ha => ?_, fun rest ha => ?_⟩,
    fun s hb => ⟨fun ha => ?_, fun rest ha => ?_⟩, fun s turn rest ha => step_of_agenda_cons ha,
    fun _ _ => rfl, fun _ => rfl, fun _ _ => rfl, fun _ _ => rfl⟩
  · rw [step_of_agenda_nil ha, engineTurn_of_decode hr hb hd]
  · rw [step_of_agenda_cons ha]
    exact engineTurn_of_decode (s := { s with agenda := rest }) hr hb hd
  · rw [step_of_agenda_nil ha, engineTurn_of_idle hb]
  · rw [step_of_agenda_cons ha]
    exact engineTurn_of_idle (s := { s with agenda := rest }) hb

/-! ## A command issued by the host -/

/-- A word write at an aligned offset of the window is answered with the write of that offset (R70–R73). -/
theorem takeTurn_wrTurn {s : State} {off : Nat} (v : Word) (hc : s.cfg.wf) (hr : s.rst = false)
    (hoff : off < 0x8000) (ha : off % 4 = 0) :
    takeTurn (wrTurn s.cfg off v) s = .next { writeOffset s off v with resp := some .written } := by
  obtain ⟨-, -, -, hbase⟩ := hc
  have hw : inWindow s.cfg (s.cfg.base + off) = true := by simp [inWindow, hoff]
  have hadm : admitted (s.cfg.base + off) 4 = true := decide_eq_true ⟨rfl, by omega⟩
  simp [takeTurn, wrTurn, hostAccess, hr, hw, hadm]

/-- A CMD write to an idle engine is the accept of its word (R44, R48). -/
theorem writeOffset_cmd_of_idle {s : State} (w : Word) (hb : s.busy = false) :
    writeOffset s 0x010 w = accept w s :=
  unlessBusy_idle (accept w) hb

theorem turns_cons_of_next {turn : Turn} {s s' : State} (rest : List Turn) (h : takeTurn turn s = .next s') :
    turns (turn :: rest) s = turns rest s' := by
  rw [turns, h]

theorem turns_singleton (turn : Turn) (s : State) : turns [turn] s = takeTurn turn s := by
  rw [turns]
  cases takeTurn turn s <;> rfl

/-- Settles O9: the CMD write is the accept, after which the engine's turn decodes the accepted word. -/
theorem issuedCommandIsExecuted : Obligations.IssuedCommandIsExecuted := by
  intro s w i hc hr hb hd
  have hwrite := takeTurn_wrTurn w hc hr (show 0x010 < 0x8000 by decide) (by decide)
  rw [writeOffset_cmd_of_idle w hb] at hwrite
  have hengine : takeTurn .engine { accept w s with resp := some .written } =
      exec i { accept w s with resp := some .written } := engineTurn_of_decode hr rfl hd
  rw [turns_cons_of_next _ hwrite, turns_singleton, hengine]

/-! ## Completion -/

/-- Settles O29: of what a command in flight can do, completion is with a commit or with an error (R46). -/
theorem completionIsAtomic : Obligations.CompletionIsAtomic := by
  intro i s t hb h
  obtain ⟨f, hf⟩ := (busy_iff s).1 hb
  obtain ⟨hidle, -⟩ | ⟨-, r, rest, -, rfl, -⟩ | ⟨g, w, hg, -, rfl⟩ := exec_cases h
  · rw [hidle] at hf
    cases hf
  · cases r with
    | ok c => exact .inr (.inl ⟨c, rfl, rfl, rfl, rfl, rfl⟩)
    | error e => exact .inr (.inr ⟨e, rfl⟩)
  · exact .inl ⟨g, w, hg, rfl⟩

/-! ## Resumption: a wait goes on over later deliveries as one run over all of them would -/

theorem isProbablePrime_append_of_answer {n rounds : Nat} {ds : List Nat} {b : Bool} {rest : List Nat}
    (more : List Nat) (h : isProbablePrime n rounds ds = .answer b rest) :
    isProbablePrime n rounds (ds ++ more) = .answer b (rest ++ more) := by
  unfold isProbablePrime at h ⊢
  cases hp : fastPath n with
  | some a =>
    rw [hp] at h
    cases h
    rfl
  | none =>
    rw [hp] at h
    exact mrRounds_append_of_answer more h

/-- IsProbablePrime waits only past the fast path, so it goes on with the rounds left (R202). -/
theorem isProbablePrime_append_of_needs {n rounds : Nat} {ds : List Nat} {left : Nat} (more : List Nat)
    (h : isProbablePrime n rounds ds = .needs left) :
    isProbablePrime n rounds (ds ++ more) = mrRounds n left more := by
  unfold isProbablePrime at h ⊢
  cases hp : fastPath n with
  | some a => simp [hp] at h
  | none =>
    rw [hp] at h
    exact mrRounds_append_of_needs more h

theorem mrtestVerdict_append_of_needs {n rounds : Nat} {w : Work} {ds : List Nat} {left : Nat}
    (more : List Nat) (h : mrtestVerdict n rounds w ds = .needs left) :
    mrtestVerdict n rounds w (ds ++ more) = mrRounds n left more := by
  cases w with
  | rounds _ => exact mrRounds_append_of_needs more h
  | start => exact isProbablePrime_append_of_needs more h
  | search _ => exact isProbablePrime_append_of_needs more h
  | probe _ _ _ => exact isProbablePrime_append_of_needs more h

/-- The search resumes where it waits: about to draw a candidate, or in the rounds of one (R230). -/
theorem search_append_of_waiting {d : Reg} {bits rounds limit count : Nat} {ds : List Nat} {w : Work}
    (more : List Nat) (h : search d bits rounds limit count ds = .waiting w) :
    search d bits rounds limit count (ds ++ more) = primegenFrom d bits rounds limit w more := by
  induction hn : ds.length using Nat.strong_induction_on generalizing count ds with
  | _ n ih =>
    subst hn
    rw [search_eq] at h
    by_cases hcap : limit ≠ 0 ∧ count = limit
    · rw [if_pos hcap] at h
      cases h
    · rw [if_neg hcap] at h
      rcases hd : draw (candidateRange bits) ds with - | ⟨r, rest⟩
      · rw [hd] at h
        cases h
        rw [primegenFrom, search_eq, search_eq, draw_append_of_none more hd]
        simp only [if_neg hcap]
      · rw [search_eq, if_neg hcap, draw_append_of_some more hd]
        rw [hd] at h
        dsimp only at h ⊢
        rcases hp : isProbablePrime (candidate bits r) rounds rest with ⟨_ | _, rest'⟩ | left
        · rw [hp] at h
          rw [isProbablePrime_append_of_answer more hp]
          exact ih _ (rest_lt_of_candidate hd hp) h rfl
        · rw [hp] at h
          cases h
        · rw [hp] at h
          cases h
          rw [isProbablePrime_append_of_needs more hp]
          change _ = resumeProbe d bits rounds limit (count + 1) (candidate bits r) left more
          unfold resumeProbe
          rcases mrRounds (candidate bits r) left more with ⟨_ | _, rest'⟩ | left' <;> rfl

theorem resumeProbe_append_of_waiting {d : Reg} {bits rounds limit count p left : Nat} {ds : List Nat}
    {w : Work} (more : List Nat) (h : resumeProbe d bits rounds limit count p left ds = .waiting w) :
    resumeProbe d bits rounds limit count p left (ds ++ more) = primegenFrom d bits rounds limit w more := by
  unfold resumeProbe at h ⊢
  rcases hm : mrRounds p left ds with ⟨_ | _, rest⟩ | left'
  · rw [hm] at h
    rw [mrRounds_append_of_answer more hm]
    exact search_append_of_waiting more h
  · rw [hm] at h
    cases h
  · rw [hm] at h
    cases h
    rw [mrRounds_append_of_needs more hm]
    rfl

theorem primegenFrom_append_of_waiting {d : Reg} {bits rounds limit : Nat} {w w' : Work} {ds : List Nat}
    (more : List Nat) (h : primegenFrom d bits rounds limit w ds = .waiting w') :
    primegenFrom d bits rounds limit w (ds ++ more) = primegenFrom d bits rounds limit w' more := by
  cases w with
  | start => exact search_append_of_waiting more h
  | rounds _ => exact search_append_of_waiting more h
  | search _ => exact search_append_of_waiting more h
  | probe _ _ _ => exact resumeProbe_append_of_waiting more h

/-- A drawing body that, from the working state it waits in, goes on over more deliveries as it would have gone
over all of them. -/
def resumes (body : Config → Flight → List Nat → Progress) : Prop :=
  ∀ (c : Config) (f : Flight) (ds more : List Nat) (w : Work), body c f ds = .waiting w →
    body c { f with work := w } more = body c f (ds ++ more)

theorem mrtestBody_resumes (a : Reg) : resumes (fun _ f ds => mrtestBody a f ds) := by
  intro c f ds more w h
  simp only [mrtestBody] at h ⊢
  cases hv : mrtestVerdict (f.snap.src a) f.snap.rounds.toNat f.work ds with
  | answer b rest =>
    rw [hv] at h
    cases h
  | needs left =>
    rw [hv] at h
    cases h
    rw [mrtestVerdict_append_of_needs more hv, mrtestVerdict]

theorem primegenBody_resumes (d : Reg) (bits : Imm) : resumes (primegenBody d bits) := by
  intro c f ds more w h
  unfold primegenBody at h ⊢
  split at h
  · cases h
  · rename_i hbits
    rw [if_neg hbits, if_neg hbits]
    exact (primegenFrom_append_of_waiting more h).symm

/-- A resuming body makes the command it runs resume: completion forgets the working state it came from. -/
theorem runDrawing_resume {body : Config → Flight → List Nat → Progress} {s t : State} (more : List Nat)
    (hres : resumes body) (h : runDrawing body s = .next t) (hb : t.busy = true) :
    runDrawing body { t with rng := more } = runDrawing body { s with rng := s.rng ++ more } := by
  obtain ⟨hidle, rfl⟩ | ⟨f, r, rest, -, -, rfl⟩ | ⟨f, w, hf, hw, rfl⟩ := runDrawing_cases h
  · simp [State.busy, hidle] at hb
  · simp [State.busy] at hb
  · simp only [runDrawing, hf, hres _ _ _ more _ hw]
    cases body s.cfg f (s.rng ++ more) with
    | ended r rest => cases r <;> rfl
    | waiting w' => rfl

/-- A command still in flight after its turn is one that draws (R52). -/
theorem draws_of_exec_busy {i : Instr} {s t : State} (h : exec i s = .next t) (hb : t.busy = true) :
    draws i = true := by
  obtain ⟨hidle, rfl⟩ | ⟨f, r, rest, -, rfl, -⟩ | ⟨-, -, -, hd, -⟩ := exec_cases h
  · simp [State.busy, hidle] at hb
  · simp [State.busy] at hb
  · exact hd

/-- Settles O43: only a drawing command waits, and the bodies of both drawing commands resume. -/
theorem resumingIsTransparent : Obligations.ResumingIsTransparent := by
  intro i s t more h hb
  have hdraws : draws i = true := draws_of_exec_busy h hb
  cases i with
  | mrtest a => exact runDrawing_resume more (mrtestBody_resumes a) h hb
  | primegen d bits => exact runDrawing_resume more (primegenBody_resumes d bits) h hb
  | _ => cases hdraws

/-! ## The reference encoding -/

@[simp] theorem fwbBytes_length (v w : Nat) : (fwbBytes v w).length = w := by
  induction w with
  | zero => rfl
  | succ w ih => rw [fwbBytes, List.length_cons, ih]

/-- Byte j of FWB is bits [8(w−1−j)+7 : 8(w−1−j)] (R16). -/
theorem fwbBytes_getElem_toNat (v w j : Nat) (h : j < (fwbBytes v w).length) :
    ((fwbBytes v w)[j]).toNat = v / 2 ^ (8 * (w - 1 - j)) % 256 := by
  induction w generalizing j with
  | zero => simp [fwbBytes] at h
  | succ w ih =>
    cases j with
    | zero => simp [fwbBytes]
    | succ j =>
      have hj : j < (fwbBytes v w).length := by simpa using h
      have hindex : w - (j + 1) = w - 1 - j := by omega
      simpa [fwbBytes, hindex] using ih j hj

/-- FWD recovers the bits that w bytes hold (R16). -/
theorem fwd_fwbBytes (v w : Nat) : fwd (fwbBytes v w) = v % 2 ^ (8 * w) := by
  induction w with
  | zero => simp [fwbBytes, fwd, Nat.mod_one]
  | succ w ih =>
    have hsplit : v % 2 ^ (8 * (w + 1)) = v % 2 ^ (8 * w) + 2 ^ (8 * w) * (v / 2 ^ (8 * w) % 2 ^ 8) := by
      rw [Nat.mul_succ, Nat.pow_add, Nat.mod_mul]
    rw [fwbBytes, fwd, ih, fwbBytes_length, BitVec.toNat_ofNat, hsplit, Nat.mul_comm, Nat.add_comm]

/-- FWD weighs byte j with 2^(8(w−1−j)) (R16). -/
theorem fwd_eq_sum (bs : List Byte) :
    fwd bs = ∑ j : Fin bs.length, (bs[j]).toNat * 2 ^ (8 * (bs.length - 1 - j.val)) := by
  induction bs with
  | nil => rfl
  | cons b bs ih =>
    rw [fwd, ih]
    simp [Fin.sum_univ_succ, Nat.sub_sub, Nat.add_comm 1]

/-- Settles O57: FWB's bytes and FWD's weights by induction on the width and the sequence; the round trip is
`fwd_fwbBytes` below the range. -/
theorem fixedWidthRoundTrip : Obligations.FixedWidthRoundTrip := by
  refine ⟨fun v w hv => ⟨?_, fwbBytes_length v w, fun j h => fwbBytes_getElem_toNat v w j h, ?_⟩,
    fun v w hv => if_pos hv, fwd_eq_sum⟩
  · exact if_neg (Nat.not_le.2 hv)
  · rw [fwd_fwbBytes, Nat.mod_eq_of_lt hv]

end Sys2Proof.Machine

/-! The state family (10_state): the machine's invariant, the register window as the host sees it, and what every
command depends on and leaves unchanged. -/

namespace Sys2Proof.Machine

open Sys2Proof

/-! ## Every command as one progress (R46, R52) -/

/-- How far command `i` gets on the delivered values; one that draws nothing completes without consuming any. -/
def progressOf : Instr → Config → Flight → List Nat → Progress
  | .mov d a, _, f, ds => .ended (.ok (Commit.reg d (f.snap.src a))) ds
  | .ldi d imm, _, _, ds => .ended (.ok (Commit.reg d (immValue imm))) ds
  | .mul d a b, c, f, ds => .ended ((mulValue c.opw (f.snap.src a) (f.snap.src b)).map (Commit.reg d)) ds
  | .modmul d a b m, _, f, ds =>
    .ended ((modmulValue (f.snap.src a) (f.snap.src b) (f.snap.src m)).map (Commit.reg d)) ds
  | .modpow d a b m, _, f, ds =>
    .ended ((modpowValue (f.snap.src a) (f.snap.src b) (f.snap.src m)).map (Commit.reg d)) ds
  | .modinv d a m, _, f, ds => .ended ((modinvValue (f.snap.src a) (f.snap.src m)).map (Commit.reg d)) ds
  | .fitw d a width, _, f, ds => .ended ((fitwValue (f.snap.src a) (immValue width)).map (Commit.reg d)) ds
  | .mrtest a, _, f, ds => mrtestBody a f ds
  | .primegen d bits, c, f, ds => primegenBody d bits c f ds
  | .crt d a b p q, c, f, ds =>
    .ended ((crtValue c.opw (f.snap.src a) (f.snap.src b) (f.snap.src p) (f.snap.src q)).map (Commit.reg d)) ds
  | .sqrt4 d a p q, c, f, ds =>
    .ended (if d.val > 12 then .error .illegalCommand
      else (sqrt4Value c.opw (f.snap.src a) (f.snap.src p) (f.snap.src q)).map (rootsCommit d)) ds
  | .transform d a p q, c, f, ds =>
    .ended ((transformValue c.opw (f.snap.src a) (f.snap.src p) (f.snap.src q)).map (transformCommit d)) ds

theorem run_eq_runDrawing (body : Config → Snapshot → Except CmdError Commit) (s : State) :
    run body s = runDrawing (fun c f ds => .ended (body c f.snap) ds) s := by
  cases hf : s.flight with
  | none => simp only [run, runDrawing, hf]
  | some f => exact (run_of_flight hf).trans (runDrawing_of_ended (rest := s.rng) hf rfl).symm

theorem exec_eq_runDrawing (i : Instr) (s : State) : exec i s = runDrawing (progressOf i) s := by
  cases i with
  | mrtest a => rfl
  | primegen d bits => rfl
  | _ =>
    rw [exec]
    exact run_eq_runDrawing _ s

/-! ## Limbs (R41) -/

/-- A limb write replaces bits [32k+31:32k] and no other (R41). -/
theorem withLimb_testBit (v k : Nat) (w : Word) (j : Nat) :
    (withLimb v k w).testBit j =
      if 32 * k ≤ j ∧ j < 32 * k + 32 then w.getLsbD (j - 32 * k) else v.testBit j := by
  have hsplit : withLimb v k w =
      2 ^ (32 * k) * (2 ^ 32 * (v / 2 ^ (32 * (k + 1))) + w.toNat) + v % 2 ^ (32 * k) := by
    rw [withLimb, Nat.mul_succ, Nat.pow_add]
    ring
  rw [hsplit, Nat.testBit_two_pow_mul_add _ (Nat.mod_lt _ (by positivity)),
    Nat.testBit_two_pow_mul_add _ w.isLt, Nat.testBit_mod_two_pow, Nat.testBit_div_two_pow]
  by_cases hlow : j < 32 * k
  · simp [hlow, Nat.not_le.2 hlow]
  · by_cases hhigh : j - 32 * k < 32
    · rw [if_neg hlow, if_pos hhigh, if_pos (by omega), BitVec.getLsbD]
    · rw [if_neg hlow, if_neg hhigh, if_neg (by omega),
        show j - 32 * k - 32 + 32 * (k + 1) = j by omega]

/-- A limb write below the register's width stays below 2^OPW (R31, R41). -/
theorem withLimb_lt {v k opw : Nat} (w : Word) (hv : v < 2 ^ opw) (hopw : opw % 32 = 0)
    (hk : k < opw / 32) : withLimb v k w < 2 ^ opw := by
  refine Nat.lt_pow_two_of_testBit _ fun j hj => ?_
  rw [withLimb_testBit, if_neg (by omega), Nat.testBit_lt_two_pow]
  exact hv.trans_le (Nat.pow_le_pow_right (by decide) hj)

/-! ## The invariant under the turns of the host, the RNG and the `rst` input -/

/-- Deliveries, the agenda and the bus response are outside the invariant. -/
theorem State.Inv.withSurroundings {s : State} (hs : s.Inv) (ds : List Nat) (ag : List Turn)
    (rs : Option Response) : State.Inv { s with rng := ds, agenda := ag, resp := rs } where
  config := hs.config
  regs := hs.regs
  errcode := hs.errcode
  busy := hs.busy
  snap := hs.snap
  work := hs.work
  held hr := congrArg (fun u : State => { u with rng := ds, agenda := ag, resp := rs }) (hs.held hr)

/-- An idle engine with `rst` released needs legal parameters, registers in range and ERR with ERRCODE only. -/
theorem State.Inv.of_idle {t : State} (hc : t.cfg.wf) (hx : ∀ r : Reg, t.x[r] < 2 ^ t.cfg.opw)
    (he : t.err = true ↔ t.errcode ≠ none) (hf : t.flight = none) (hr : t.rst = false) : t.Inv where
  config := hc
  regs := hx
  errcode := he
  busy hb := by simp [State.busy, hf] at hb
  snap f h := by simp [hf] at h
  work f h := by simp [hf] at h
  held h := by simp [hr] at h

/-- IRQ_EN and COLL are outside the invariant, and DONE may fall at any moment (R43, R45). -/
theorem State.Inv.withFlags {s : State} (hs : s.Inv) (hr : s.rst = false) (e c : Bool) {d : Bool}
    (hd : d = true → s.done = true) : State.Inv { s with irqEn := e, coll := c, done := d } where
  config := hs.config
  regs := hs.regs
  errcode := hs.errcode
  busy hb := by
    obtain ⟨hdone, herr⟩ := hs.busy hb
    exact ⟨by simpa [hdone] using hd, herr⟩
  snap := hs.snap
  work := hs.work
  held h := by simp [hr] at h

/-- The reset state meets the invariant, with `rst` released or asserted (R350, R352). -/
theorem State.Inv.resetWith {c : Config} (hc : c.wf) (level : Bool) (ds : List Nat) (ag : List Turn)
    (rs : Option Response) : (State.resetWith c level ds ag rs).Inv where
  config := hc
  regs r := by simp [State.resetWith]
  errcode := by simp [State.resetWith]
  busy h := by simp [State.resetWith, State.busy] at h
  snap f h := by simp [State.resetWith] at h
  work f h := by simp [State.resetWith] at h
  held _ := rfl

theorem accept_keeps_inv {s : State} (w : Word) (hs : s.Inv) (hr : s.rst = false) : (accept w s).Inv where
  config := hs.config
  regs := hs.regs
  errcode := by simp
  busy _ := ⟨rfl, rfl⟩
  snap f h := by
    cases h
    rfl
  work f h := by
    cases h
    trivial
  held h := by simp [hr] at h

theorem writeOffset_keeps_inv {s : State} (off : Nat) (v : Word) (hs : s.Inv) (hr : s.rst = false) :
    (writeOffset s off v).Inv := by
  have hidle : s.busy = false → s.flight = none := (not_busy_iff s).1
  obtain h | ⟨-, h⟩ | h | h | h | ⟨hb, h | h | h | ⟨i, k, hk, h⟩⟩ := writeOffset_cases s off v <;> rw [h]
  · exact hs
  · exact hs.withFlags hr _ _ id
  · exact .resetWith hs.config _ _ _ _
  · exact hs.withFlags hr _ _ id
  · exact hs.withFlags hr _ _ (by simp +contextual)
  · exact accept_keeps_inv v hs hr
  · exact .of_idle hs.config hs.regs hs.errcode (hidle hb) hr
  · exact .of_idle hs.config hs.regs hs.errcode (hidle hb) hr
  · refine .of_idle hs.config (fun r => ?_) hs.errcode (hidle hb) hr
    by_cases hir : (i : Nat) = (r : Nat)
    · simpa [hir] using withLimb_lt v (hs.regs i) hs.config.1 hk
    · simpa [hir] using hs.regs r

theorem hostAccess_keeps_inv {a : Access} {s t : State} (hs : s.Inv) (h : hostAccess a s = .next t) : t.Inv := by
  obtain ⟨hr, ⟨r, rfl⟩ | ⟨addr, lanes, -, -, -, -, rfl⟩⟩ := hostAccess_cases h
  · exact hs.withSurroundings _ _ _
  · exact (writeOffset_keeps_inv _ _ hs hr).withSurroundings _ _ _

theorem driveRst_keeps_inv {s : State} (level : Bool) (hs : s.Inv) : (driveRst level s).Inv := by
  cases level with
  | true => exact .resetWith hs.config _ _ _ _
  | false => exact { hs with held := fun h => by cases h }

/-! ## Every result fits its register (R31) -/

theorem powModLoop_lt {b e m acc : Nat} (i : Nat) (hacc : acc < m) : powModLoop b e m i acc < m := by
  induction i generalizing acc with
  | zero => exact hacc
  | succ i ih =>
    have hm : 0 < m := by omega
    rw [powModLoop]
    refine ih ?_
    split <;> exact Nat.mod_lt _ hm

theorem powMod_lt (base e : Nat) {m : Nat} (hm : 0 < m) : powMod base e m < m :=
  powModLoop_lt _ (Nat.mod_lt _ hm)

theorem inv_lt (a : Nat) {m : Nat} (hm : 0 < m) : inv a m < m := by
  have hlt := Int.emod_lt_of_pos (egcd a m).2 (Int.natCast_pos.2 hm)
  rw [inv]
  omega

/-- The modulus checks leave a product that is positive and fits the register (R254, R280). -/
theorem checkModuli_ok {opw p q : Nat} {u : Unit} (h : checkModuli opw p q = .ok u) :
    0 < p * q ∧ p * q < 2 ^ opw := by
  unfold checkModuli at h
  split at h
  · cases h
  · rename_i hmod
    split at h
    · cases h
    · rename_i hsize
      have hp : 0 < p := by omega
      have hq : 0 < q := by omega
      exact ⟨Nat.mul_pos hp hq, Nat.not_le.1 hsize⟩

/-- The four roots are residues modulo n (R253). -/
theorem roots_lt (c : Nat) {p q : Nat} (h : 0 < p * q) :
    (roots c p q).r1 < p * q ∧ (roots c p q).r2 < p * q ∧ (roots c p q).r3 < p * q ∧
      (roots c p q).r4 < p * q :=
  ⟨Nat.mod_lt _ h, Nat.mod_lt _ h, Nat.mod_lt _ h, Nat.mod_lt _ h⟩

/-- A candidate has at most `bits` bits (R231). -/
theorem candidate_lt {bits r : Nat} (hbits : 2 ≤ bits) (hr : r < 2 ^ bits) : candidate bits r < 2 ^ bits := by
  have htop : 2 ^ (bits - 1) < 2 ^ bits := Nat.pow_lt_pow_right (by decide) (by omega)
  have hlow : 3 < 2 ^ bits := lt_of_lt_of_le (by decide : 3 < 2 ^ 2) (Nat.pow_le_pow_right (by decide) hbits)
  exact Nat.or_lt_two_pow (Nat.or_lt_two_pow hr htop) hlow

/-- Every register value of a commit is below 2^OPW (R31). -/
def resultFits (opw : Nat) (r : Except CmdError Commit) : Prop :=
  ∀ c, r = .ok c → ∀ e ∈ c.regs, e.2 < 2 ^ opw

theorem resultFits_error (opw : Nat) (e : CmdError) : resultFits opw (.error e) := fun _ h => by cases h

theorem resultFits_ok {opw : Nat} {c : Commit} (h : ∀ e ∈ c.regs, e.2 < 2 ^ opw) : resultFits opw (.ok c) :=
  fun _ hc => by cases hc; exact h

theorem resultFits_reg {opw : Nat} {d : Reg} {v : Except CmdError Nat} (h : ∀ u, v = .ok u → u < 2 ^ opw) :
    resultFits opw (v.map (Commit.reg d)) := by
  cases v with
  | error e => exact resultFits_error opw e
  | ok u => exact resultFits_ok (by simpa [Commit.reg] using h u rfl)

theorem mulValue_lt {opw a b v : Nat} (h : mulValue opw a b = .ok v) : v < 2 ^ opw := by
  unfold mulValue at h
  split at h <;> cases h
  omega

theorem modmulValue_lt {a b m v : Nat} (h : modmulValue a b m = .ok v) : v < m := by
  unfold modmulValue at h
  split at h <;> cases h
  exact Nat.mod_lt _ (by omega)

theorem modpowValue_lt {b e m v : Nat} (h : modpowValue b e m = .ok v) : v < m := by
  unfold modpowValue at h
  split at h <;> cases h
  exact powMod_lt _ _ (by omega)

theorem modinvValue_lt {a m v : Nat} (h : modinvValue a m = .ok v) : v < m := by
  unfold modinvValue at h
  split at h
  · cases h
  · split at h <;> cases h
    exact inv_lt _ (by omega)

theorem fitwValue_eq {v w u : Nat} (h : fitwValue v w = .ok u) : u = v := by
  unfold fitwValue at h
  split at h <;> cases h
  rfl

theorem crtValue_lt {opw xp xq p q v : Nat} (h : crtValue opw xp xq p q = .ok v) : v < 2 ^ opw := by
  unfold crtValue at h
  split at h
  · cases h
  · rename_i hpos
    have hpq : 0 < p * q := Nat.mul_pos (by omega) (by omega)
    split at h
    · cases h
    · split at h <;> cases h
      exact lt_trans (Nat.mod_lt _ hpq) (by omega)

theorem sqrt4_fits (opw c p q : Nat) (d : Reg) : resultFits opw ((sqrt4Value opw c p q).map (rootsCommit d)) := by
  unfold sqrt4Value
  cases hm : checkModuli opw p q with
  | error e => exact resultFits_error opw e
  | ok u =>
    obtain ⟨hpos, hlt⟩ := checkModuli_ok hm
    obtain ⟨h1, h2, h3, h4⟩ := roots_lt c hpos
    exact resultFits_ok (by simp [rootsCommit, h1.trans hlt, h2.trans hlt, h3.trans hlt, h4.trans hlt])

theorem transform_fits (opw m p q : Nat) (d : Reg) :
    resultFits opw ((transformValue opw m p q).map (transformCommit d)) := by
  unfold transformValue
  split
  · exact resultFits_error opw _
  · cases hm : checkModuli opw p q with
    | error e => exact resultFits_error opw e
    | ok u =>
      obtain ⟨hpos, hlt⟩ := checkModuli_ok hm
      obtain ⟨h1, h2, h3, h4⟩ := roots_lt (m * m % (p * q)) hpos
      have hxor := Nat.xor_lt_two_pow (Nat.xor_lt_two_pow (Nat.xor_lt_two_pow (h1.trans hlt) (h2.trans hlt))
        (h3.trans hlt)) (h4.trans hlt)
      exact resultFits_ok (by simpa [transformCommit, xorRoots] using hxor)

/-! ## Progress of the drawing commands (R52, R56) -/

/-- How a drawing command's turn keeps the invariant: a result fits, a wait's working state fits the command. -/
def progressFits (c : Config) (cmd : Word) (p : Snapshot) : Progress → Prop
  | .ended r _ => resultFits c.opw r
  | .waiting w => workFits c cmd p w

/-- A test from the beginning that waits is past the fast path with a round to run (R202). -/
theorem isProbablePrime_needs {n rounds left : Nat} {ds : List Nat}
    (h : isProbablePrime n rounds ds = .needs left) : fastPath n = none ∧ 1 ≤ left ∧ left ≤ rounds := by
  unfold isProbablePrime at h
  split at h
  · cases h
  · exact ⟨‹_›, mrRounds_needs h⟩

theorem mrtestVerdict_needs {c : Config} {cmd : Word} {p : Snapshot} {w : Work} {a : Reg} {left : Nat}
    {ds : List Nat} (hd : decode cmd = .ok (.mrtest a)) (hw : workFits c cmd p w)
    (h : mrtestVerdict (p.src a) p.rounds.toNat w ds = .needs left) :
    fastPath (p.src a) = none ∧ 1 ≤ left ∧ left ≤ p.rounds.toNat := by
  cases w with
  | rounds k =>
    obtain ⟨a', hd', hfast, -, hk⟩ := hw
    cases hd.symm.trans hd'
    obtain ⟨hleft, hle⟩ := mrRounds_needs h
    exact ⟨hfast, hleft, hle.trans hk⟩
  | start => exact isProbablePrime_needs h
  | search _ => exact isProbablePrime_needs h
  | probe _ _ _ => exact isProbablePrime_needs h

theorem mrtestBody_fits {c : Config} {cmd : Word} {f : Flight} {a : Reg} (ds : List Nat)
    (hd : decode cmd = .ok (.mrtest a)) (hw : workFits c cmd f.snap f.work) :
    progressFits c cmd f.snap (mrtestBody a f ds) := by
  unfold mrtestBody
  cases hv : mrtestVerdict (f.snap.src a) f.snap.rounds.toNat f.work ds with
  | answer b rest => exact resultFits_ok (by simp)
  | needs left => exact ⟨a, hd, mrtestVerdict_needs hd hw hv⟩

section Primegen

variable {c : Config} {cmd : Word} {p : Snapshot} {d : Reg} {bits : Imm}

/-- A candidate found prime fits x[d] (R231, R234). -/
theorem foundPrime_fits {opw bits r : Nat} (d : Reg) (count : Nat) (hlo : 2 ≤ bits) (hhi : bits ≤ opw)
    (hr : r < 2 ^ bits) : resultFits opw (.ok (foundPrime d (candidate bits r) count)) :=
  resultFits_ok (by
    simpa [foundPrime] using (candidate_lt hlo hr).trans_le (Nat.pow_le_pow_right (by decide) hhi))

variable (hd : decode cmd = .ok (.primegen d bits)) (hlo : 2 ≤ bits.toNat) (hhi : bits.toNat ≤ c.opw)
include hd hlo hhi

/-- A search below its cap stays below it: it waits before the cap or in a candidate of R231 (R230, R233). -/
theorem search_fits {count : Nat} {ds : List Nat}
    (hcount : p.retryLimit.toNat ≠ 0 → count ≤ p.retryLimit.toNat) :
    progressFits c cmd p (search d bits.toNat p.rounds.toNat p.retryLimit.toNat count ds) := by
  induction hn : ds.length using Nat.strong_induction_on generalizing count ds with
  | _ n ih =>
    subst hn
    have hlimit : p.retryLimit ≠ 0 → p.retryLimit.toNat ≠ 0 := fun h h0 => h (BitVec.eq_of_toNat_eq h0)
    rw [search_eq]
    by_cases hcap : p.retryLimit.toNat ≠ 0 ∧ count = p.retryLimit.toNat
    · rw [if_pos hcap]
      exact resultFits_error _ _
    · rw [if_neg hcap]
      have hbelow : p.retryLimit.toNat ≠ 0 → count < p.retryLimit.toNat := fun h => by
        have := hcount h
        omega
      rcases hdraw : draw (candidateRange bits.toNat) ds with - | ⟨r, rest⟩
      · exact ⟨d, bits, hd, hlo, hhi, fun h => hbelow (hlimit h)⟩
      · obtain ⟨hrange, -⟩ := draw_some hdraw
        have hr : r < 2 ^ bits.toNat := of_decide_eq_true hrange
        dsimp only
        rcases hp : isProbablePrime (candidate bits.toNat r) p.rounds.toNat rest with ⟨_ | _, rest'⟩ | left
        · exact ih _ (rest_lt_of_candidate hdraw hp) hbelow rfl
        · exact foundPrime_fits d _ hlo hhi hr
        · obtain ⟨hfast, hleft⟩ := isProbablePrime_needs hp
          exact ⟨d, bits, hd, hlo, hhi, ⟨r, hr, rfl⟩, hfast, by omega, fun h => hbelow (hlimit h), hleft⟩

theorem primegenFrom_fits {w : Work} (ds : List Nat) (hw : workFits c cmd p w) :
    progressFits c cmd p (primegenFrom d bits.toNat p.rounds.toNat p.retryLimit.toNat w ds) := by
  have hnonzero : p.retryLimit.toNat ≠ 0 → p.retryLimit ≠ 0 := fun h h0 => h (by simp [h0])
  cases w with
  | start => exact search_fits hd hlo hhi (by omega)
  | rounds _ => exact search_fits hd hlo hhi (by omega)
  | search count =>
    obtain ⟨d', bits', -, -, -, hcount⟩ := hw
    exact search_fits hd hlo hhi fun h => (hcount (hnonzero h)).le
  | probe count q left =>
    obtain ⟨d', bits', hd', -, -, ⟨r, hr, rfl⟩, hfast, hpos, hcount, -, hleft⟩ := hw
    cases hd.symm.trans hd'
    rw [primegenFrom, resumeProbe]
    rcases hm : mrRounds (candidate bits.toNat r) left ds with ⟨_ | _, rest⟩ | left'
    · exact search_fits hd hlo hhi fun h => hcount (hnonzero h)
    · exact foundPrime_fits d _ hlo hhi hr
    · obtain ⟨hone, hle⟩ := mrRounds_needs hm
      exact ⟨d, bits, hd, hlo, hhi, ⟨r, hr, rfl⟩, hfast, hpos, hcount, hone, hle.trans hleft⟩

end Primegen

theorem primegenBody_fits {c : Config} {cmd : Word} {f : Flight} {d : Reg} {bits : Imm} (ds : List Nat)
    (hd : decode cmd = .ok (.primegen d bits)) (hw : workFits c cmd f.snap f.work) :
    progressFits c cmd f.snap (primegenBody d bits c f ds) := by
  unfold primegenBody
  split
  · exact resultFits_error _ _
  · rename_i hbits
    rw [immValue, not_or, Nat.not_lt, Nat.not_lt] at hbits
    exact primegenFrom_fits hd hbits.1 hbits.2 ds hw

/-! ## The invariant under the engine's turn, and under every step -/

theorem complete_keeps_inv {s : State} {r : Except CmdError Commit} (hs : s.Inv) (hr : s.rst = false)
    (hfit : resultFits s.cfg.opw r) : (complete r s).Inv := by
  cases r with
  | error e => exact .of_idle hs.config hs.regs (by simp) rfl hr
  | ok c =>
    refine .of_idle hs.config (fun i => ?_) hs.errcode rfl hr
    obtain hold | ⟨v, hv, hnew⟩ := writeRegs_cases c.regs i s.x
    · exact hold ▸ hs.regs i
    · exact hnew ▸ hfit c rfl _ hv

/-- A wait changes the working state only, to one that fits the command (R52, R56). -/
theorem wait_keeps_inv {s : State} {f : Flight} {w : Work} (hs : s.Inv) (hr : s.rst = false)
    (hf : s.flight = some f) (hw : workFits s.cfg s.cmd f.snap w) :
    State.Inv { s with rng := [], flight := some { f with work := w } } where
  config := hs.config
  regs := hs.regs
  errcode := hs.errcode
  busy _ := hs.busy ((busy_iff s).2 ⟨f, hf⟩)
  snap g hg := by
    cases hg
    exact hs.snap f hf
  work g hg := by
    cases hg
    exact hw
  held h := by simp [hr] at h

/-- The snapshot of a command in flight holds naturals below 2^OPW (R31, R363). -/
theorem State.Inv.src_lt {s : State} {f : Flight} (hs : s.Inv) (hf : s.flight = some f) (a : Reg) :
    f.snap.src a < 2 ^ s.cfg.opw := by
  rw [hs.snap f hf]
  exact hs.regs a

/-- A command's turn in flight keeps the invariant: its result fits, or its wait fits the command. -/
theorem progressOf_fits {c : Config} {cmd : Word} {f : Flight} {i : Instr} (ds : List Nat) (hc : c.wf)
    (hd : decode cmd = .ok i) (hsrc : ∀ a, f.snap.src a < 2 ^ c.opw)
    (hw : workFits c cmd f.snap f.work) : progressFits c cmd f.snap (progressOf i c f ds) := by
  cases i with
  | mov d a => exact resultFits_ok (by simpa [Commit.reg] using hsrc a)
  | ldi d imm =>
    have himm : immValue imm < 2 ^ c.opw :=
      imm.isLt.trans_le (Nat.pow_le_pow_right (by decide) (by omega))
    exact resultFits_ok (by simpa [Commit.reg] using himm)
  | mul d a b => exact resultFits_reg fun u hu => mulValue_lt hu
  | modmul d a b m => exact resultFits_reg fun u hu => (modmulValue_lt hu).trans (hsrc m)
  | modpow d a b m => exact resultFits_reg fun u hu => (modpowValue_lt hu).trans (hsrc m)
  | modinv d a m => exact resultFits_reg fun u hu => (modinvValue_lt hu).trans (hsrc m)
  | fitw d a width => exact resultFits_reg fun u hu => fitwValue_eq hu ▸ hsrc a
  | mrtest a => exact mrtestBody_fits ds hd hw
  | primegen d bits => exact primegenBody_fits ds hd hw
  | crt d a b p q => exact resultFits_reg fun u hu => crtValue_lt hu
  | sqrt4 d a p q =>
    rw [progressOf]
    split
    · exact resultFits_error _ _
    · exact sqrt4_fits _ _ _ _ d
  | transform d a p q => exact transform_fits _ _ _ _ d

theorem exec_keeps_inv {i : Instr} {s t : State} (hs : s.Inv) (hr : s.rst = false) (hd : decode s.cmd = .ok i)
    (h : exec i s = .next t) : t.Inv := by
  rw [exec_eq_runDrawing] at h
  have hfits : ∀ f, s.flight = some f → progressFits s.cfg s.cmd f.snap (progressOf i s.cfg f s.rng) :=
    fun f hf => progressOf_fits s.rng hs.config hd (hs.src_lt hf) (hs.work f hf)
  obtain ⟨-, rfl⟩ | ⟨f, r, rest, hf, hb, rfl⟩ | ⟨f, w, hf, hb, rfl⟩ := runDrawing_cases h
  · exact hs
  · have hresult : progressFits s.cfg s.cmd f.snap (.ended r rest) := hb ▸ hfits f hf
    exact complete_keeps_inv (hs.withSurroundings rest _ _) hr hresult
  · have hwork : progressFits s.cfg s.cmd f.snap (.waiting w) := hb ▸ hfits f hf
    exact wait_keeps_inv hs hr hf hwork

theorem engineTurn_keeps_inv {s t : State} (hs : s.Inv) (h : engineTurn s = .next t) : t.Inv := by
  unfold engineTurn execWord at h
  split at h
  · cases h
    exact hs
  · rename_i hrst
    have hr : s.rst = false := by simpa using hrst
    split at h
    · split at h
      · exact exec_keeps_inv hs hr ‹_› h
      · cases h
        exact complete_keeps_inv hs hr (resultFits_error _ _)
    · cases h
      exact hs

theorem takeTurn_keeps_inv {turn : Turn} {s t : State} (hs : s.Inv) (h : takeTurn turn s = .next t) : t.Inv := by
  cases turn with
  | host a => exact hostAccess_keeps_inv hs h
  | engine => exact engineTurn_keeps_inv hs h
  | rng v =>
    cases h
    exact hs.withSurroundings _ _ _
  | rst level =>
    cases h
    exact driveRst_keeps_inv level hs

/-- Settles O16: each agent's turn keeps the invariant, and taking a turn off the agenda is outside it. -/
theorem stepKeepsTheInvariant : Obligations.StepKeepsTheInvariant := by
  intro s t hs h
  cases ha : s.agenda with
  | nil => exact engineTurn_keeps_inv hs (step_of_agenda_nil ha ▸ h)
  | cons turn rest => exact takeTurn_keeps_inv (hs.withSurroundings s.rng rest s.resp) (step_of_agenda_cons ha ▸ h)

/-! ## What a command depends on, and its frame (R47, R52) -/

/-- Settles O31: `progressOf` sees the parameters, the command in flight and the deliveries only. -/
theorem commandsDependOnSnapshotAndDraws : Obligations.CommandsDependOnSnapshotAndDraws := by
  intro i s s' t hcfg hflight hrng h
  rw [exec_eq_runDrawing] at h ⊢
  obtain ⟨hf, rfl⟩ | ⟨f, r, rest, hf, hb, rfl⟩ | ⟨f, w, hf, hb, rfl⟩ := runDrawing_cases h
  · exact ⟨s', by simp only [runDrawing, hflight, hf], .inl ⟨hf, rfl, rfl⟩⟩
  · rw [← hcfg, ← hrng] at hb
    exact ⟨_, runDrawing_of_ended (hflight.trans hf) hb, .inr (.inr ⟨r, rest, rfl, rfl⟩)⟩
  · rw [← hcfg, ← hrng] at hb
    exact ⟨_, runDrawing_of_waiting (hflight.trans hf) hb, .inr (.inl ⟨_, rfl, rfl⟩)⟩

/-- A command still in flight waits: its working state moved on and every delivered value is consumed (R52; log
entry 2). -/
theorem exec_wait {i : Instr} {s t : State} (h : exec i s = .next t) (hb : t.busy = true) :
    ∃ (f : Flight) (w : Work), t = { s with rng := [], flight := some { f with work := w } } := by
  obtain ⟨hidle, rfl⟩ | ⟨f, r, rest, -, rfl, -⟩ | ⟨f, w, -, -, ht⟩ := exec_cases h
  · simp [State.busy, hidle] at hb
  · simp [State.busy] at hb
  · exact ⟨f, w, ht⟩

/-- Settles O42: executing a waiting command again resumes it over no new delivery, which is the same run. -/
theorem waitingChangesNothing : Obligations.WaitingChangesNothing := by
  intro i s t h hb
  have hrng : t.rng = [] := by
    obtain ⟨f, w, rfl⟩ := exec_wait h hb
    rfl
  refine ⟨draws_of_exec_busy h hb, hrng, ?_⟩
  have hresume := resumingIsTransparent i s t [] h hb
  rw [List.append_nil] at hresume
  calc exec i t = exec i { t with rng := [] } := by rw [← hrng]
    _ = .next t := hresume.trans h

/-- A completion with an allowed result stays in its command's frame (R46). -/
theorem complete_frame {i : Instr} {s : State} {r : Except CmdError Commit} {rest : List Nat}
    (hused : ∃ used, s.rng = used ++ rest) (hdraw : draws i = false → rest = s.rng) (hr : allowedResult i r) :
    Frame (destinations i) (writesRes i) (writesCount i) (draws i) s (complete r { s with rng := rest }) := by
  cases r with
  | error e =>
    exact ⟨fun _ _ => rfl, rfl, rfl, rfl, rfl, rfl, rfl, rfl, rfl, rfl, fun _ => rfl, fun _ => rfl, hdraw, hused⟩
  | ok c =>
    obtain ⟨hregs, hres, hcount⟩ := hr.1 c rfl
    refine ⟨fun d hd => writeRegs_of_not_mem _ fun hmem => ?_, rfl, rfl, rfl, rfl, rfl, rfl, rfl, rfl, rfl,
      fun h => by simp [hres h], fun h => by simp [hcount h], hdraw, hused⟩
    obtain ⟨e, he, rfl⟩ := List.mem_map.1 hmem
    exact hd (hregs e he)

theorem exec_frame {i : Instr} {s t : State} (h : exec i s = .next t) :
    Frame (destinations i) (writesRes i) (writesCount i) (draws i) s t := by
  obtain ⟨-, rfl⟩ | ⟨f, r, rest, -, rfl, hused, hdraw, hr⟩ | ⟨f, w, -, hdraws, rfl⟩ := exec_cases h
  · exact ⟨fun _ _ => rfl, rfl, rfl, rfl, rfl, rfl, rfl, rfl, rfl, rfl, fun _ => rfl, fun _ => rfl, fun _ => rfl,
      [], rfl⟩
  · exact complete_frame hused hdraw hr
  · exact ⟨fun _ _ => rfl, rfl, rfl, rfl, rfl, rfl, rfl, rfl, rfl, rfl, fun _ => rfl, fun _ => rfl,
      fun h => by simp [hdraws] at h, s.rng, by simp⟩

/-- The host reads the window as before wherever the frame leaves its register alone (R40). -/
theorem Frame.readLocation_eq {dst : List Reg} {mayRes mayCount mayDraw : Bool} {s t : State}
    (hF : Frame dst mayRes mayCount mayDraw s t) {l : Location} (hlimb : ∀ r ∈ dst, ∀ k, l ≠ .limb r k)
    (hstatus : l ≠ .status) (herr : l ≠ .errcode) (hres : mayRes = true → l ≠ .res)
    (hcount : mayCount = true → l ≠ .retryCount) : readLocation t l = readLocation s l := by
  cases l with
  | param => simp only [readLocation, hF.cfg]
  | ctrl => simp only [readLocation, ctrlWord, hF.irqEn]
  | status => exact absurd rfl hstatus
  | errcode => exact absurd rfl herr
  | cmd => exact hF.cmd
  | rounds => simp only [readLocation, hF.rounds]
  | retryLimit => exact hF.retryLimit
  | res => exact hF.res (Bool.eq_false_iff.2 fun h => hres h rfl)
  | retryCount => exact hF.retryCount (Bool.eq_false_iff.2 fun h => hcount h rfl)
  | limb r k => simp only [readLocation, hF.regs r fun hr => hlimb r hr k rfl]
  | _ => rfl

/-- Settles O28: the frame of each way a command can end, and the window read through it. -/
theorem commandFrames : Obligations.CommandFrames := by
  intro i s t h
  have hF := exec_frame h
  refine ⟨hF, fun off hlimb hstatus herr hres hcount => ?_⟩
  rw [readOffset, readOffset, hF.cfg]
  exact hF.readLocation_eq hlimb hstatus herr hres hcount

/-! ## The register map, offset by offset (R40) -/

@[simp] theorem readOffset_id (s : State) : readOffset s 0x000 = idWord := rfl
@[simp] theorem readOffset_param (s : State) : readOffset s 0x004 = paramWord s.cfg := rfl
@[simp] theorem readOffset_ctrl (s : State) : readOffset s 0x008 = ctrlWord s := rfl
@[simp] theorem readOffset_status (s : State) : readOffset s 0x00C = statusWord s := rfl
@[simp] theorem readOffset_cmd (s : State) : readOffset s 0x010 = s.cmd := rfl
@[simp] theorem readOffset_errcode (s : State) : readOffset s 0x014 = errcodeWord s := rfl
@[simp] theorem readOffset_res (s : State) : readOffset s 0x018 = s.res := rfl
@[simp] theorem readOffset_rounds (s : State) : readOffset s 0x01C = BitVec.ofNat 32 s.rounds.toNat := rfl
@[simp] theorem readOffset_retryLimit (s : State) : readOffset s 0x020 = s.retryLimit := rfl
@[simp] theorem readOffset_retryCount (s : State) : readOffset s 0x024 = s.retryCount := rfl

@[simp] theorem writeOffset_ctrl (s : State) (v : Word) : writeOffset s 0x008 v = writeCtrl v s := rfl
@[simp] theorem writeOffset_status (s : State) (v : Word) : writeOffset s 0x00C v = clearStatus v s := rfl

theorem writeOffset_rounds_of_idle {s : State} (v : Word) (hb : s.busy = false) :
    writeOffset s 0x01C v = { s with rounds := BitVec.ofNat 16 v.toNat } :=
  unlessBusy_idle (fun s => { s with rounds := BitVec.ofNat 16 v.toNat }) hb

theorem writeOffset_retryLimit_of_idle {s : State} (v : Word) (hb : s.busy = false) :
    writeOffset s 0x020 v = { s with retryLimit := v } :=
  unlessBusy_idle (fun s => { s with retryLimit := v }) hb

theorem writeOffset_cmd_of_busy {s : State} (w : Word) (hb : s.busy = true) :
    writeOffset s 0x010 w = collide s :=
  unlessBusy_busy (accept w) hb

theorem writeOffset_rounds_of_busy {s : State} (v : Word) (hb : s.busy = true) :
    writeOffset s 0x01C v = collide s :=
  unlessBusy_busy (fun s => { s with rounds := BitVec.ofNat 16 v.toNat }) hb

theorem writeOffset_retryLimit_of_busy {s : State} (v : Word) (hb : s.busy = true) :
    writeOffset s 0x020 v = collide s :=
  unlessBusy_busy (fun s => { s with retryLimit := v }) hb

theorem writeCtrl_of_srst {s : State} {v : Word} (h : v.getLsbD 1 = true) : writeCtrl v s = engineReset s :=
  if_pos h

theorem writeCtrl_of_not_srst {s : State} {v : Word} (h : v.getLsbD 1 = false) :
    writeCtrl v s = { s with irqEn := v.getLsbD 0 } :=
  if_neg (ne_true_of_eq_false h)

/-- The offsets between the control registers and the operand window, and above it, are reserved (R40, R77). -/
theorem locate_reserved (c : Config) {off : Nat} (h : 0x028 ≤ off ∧ off < 0x1000 ∨ 0x5000 ≤ off) :
    locate c off = .reserved := by
  unfold locate
  iterate 11 rw [if_neg (by omega)]

/-- An offset of the operand window names its limb, or lies above the register's width (R41). -/
theorem locate_limbOffset (c : Config) (i : Reg) {k : Nat} (hk : k < 256) :
    locate c (limbOffset i k) = if k < c.limbs then .limb i k else .spareLimb := by
  have hi := i.isLt
  have hreg : windowReg (limbOffset i k) = i := Fin.ext (by simp only [windowReg, limbOffset]; omega)
  have hlimb : windowLimb (limbOffset i k) = k := by simp only [windowLimb, limbOffset]; omega
  have hlow : 0x1000 ≤ limbOffset i k := by rw [limbOffset]; omega
  have hhigh : limbOffset i k < 0x5000 := by rw [limbOffset]; omega
  unfold locate
  iterate 10 rw [if_neg (by omega)]
  rw [if_pos ⟨hlow, hhigh⟩, hreg, hlimb]

section Limb

variable {s : State} {k : Nat} (i : Reg) (hk : k < 256)
include hk

theorem locate_limb_of_lt {c : Config} (hlt : k < c.limbs) : locate c (limbOffset i k) = .limb i k := by
  rw [locate_limbOffset c i hk, if_pos hlt]

theorem locate_spareLimb {c : Config} (hge : c.limbs ≤ k) : locate c (limbOffset i k) = .spareLimb := by
  rw [locate_limbOffset c i hk, if_neg (Nat.not_lt.2 hge)]

theorem readOffset_limb (hlt : k < s.cfg.limbs) : readOffset s (limbOffset i k) = limbOf s.x[i] k := by
  rw [readOffset, locate_limb_of_lt i hk hlt, readLocation]

theorem writeOffset_limb_of_idle (v : Word) (hlt : k < s.cfg.limbs) (hb : s.busy = false) :
    writeOffset s (limbOffset i k) v = { s with x := s.x.set i (withLimb s.x[i] k v) } := by
  rw [writeOffset, locate_limb_of_lt i hk hlt, writeLocation, unlessBusy_idle _ hb]

theorem writeOffset_limb_of_busy (v : Word) (hlt : k < s.cfg.limbs) (hb : s.busy = true) :
    writeOffset s (limbOffset i k) v = collide s := by
  rw [writeOffset, locate_limb_of_lt i hk hlt, writeLocation, unlessBusy_busy _ hb]

theorem readOffset_spareLimb (hge : s.cfg.limbs ≤ k) : readOffset s (limbOffset i k) = 0 := by
  rw [readOffset, locate_spareLimb i hk hge, readLocation]

theorem writeOffset_spareLimb (v : Word) (hge : s.cfg.limbs ≤ k) :
    writeOffset s (limbOffset i k) v = unlessBusy id s := by
  rw [writeOffset, locate_spareLimb i hk hge, writeLocation]
  rfl

end Limb

/-! ## Control registers -/

/-- A word in flight that spells no command completes with IllegalCommand at the engine's turn (R110). -/
theorem engineTurn_of_reject {s : State} {r : Reject} (hr : s.rst = false) (hb : s.busy = true)
    (hd : decode s.cmd = .error r) : engineTurn s = .next (failedWith .illegalCommand s) := by
  simp only [engineTurn, execWord, hr, hb, hd]
  rfl

/-- Settles O19: the CMD write is the accept, or the collision; an illegal word in flight fails at the engine's
turn. -/
theorem cmdWriteAcceptsOrCollides : Obligations.CmdWriteAcceptsOrCollides := by
  intro s w hc hr
  have hwrite := takeTurn_wrTurn w hc hr (show 0x010 < 0x8000 by decide) (by decide)
  refine ⟨fun hb => ⟨_, hwrite, ?_, fun r hd => ?_⟩, fun hb => ?_⟩
  · rw [writeOffset_cmd_of_idle w hb]
    rfl
  · rw [writeOffset_cmd_of_idle w hb]
    exact engineTurn_of_reject hr rfl hd
  · rw [writeOffset_cmd_of_busy w hb] at hwrite
    exact hwrite

/-- A word of a small number has no bit above it. -/
theorem ofNat_getLsbD_of_lt {n lo j : Nat} (hn : n < 2 ^ lo) (hj : lo ≤ j) :
    (BitVec.ofNat 32 n).getLsbD j = false := by
  rw [BitVec.getLsbD_ofNat, Nat.testBit_lt_two_pow (hn.trans_le (Nat.pow_le_pow_right (by decide) hj)),
    Bool.and_false]

/-- BUSY, DONE, ERR and COLL stand in bits 0 to 3 of STATUS, and nothing above (R45). -/
theorem statusWord_bits (s : State) :
    (statusWord s).getLsbD 0 = s.busy ∧ (statusWord s).getLsbD 1 = s.done ∧ (statusWord s).getLsbD 2 = s.err ∧
      (statusWord s).getLsbD 3 = s.coll ∧ ∀ j, 4 ≤ j → (statusWord s).getLsbD j = false := by
  unfold statusWord
  generalize s.busy = b, s.done = d, s.err = e, s.coll = c
  have hlt : bit b + 2 * bit d + 4 * bit e + 8 * bit c < 2 ^ 4 := by
    revert b d e c
    decide
  refine ⟨?_, ?_, ?_, ?_, fun j hj => ofNat_getLsbD_of_lt hlt hj⟩ <;> (revert b d e c; decide)

theorem errcodeWord_of_some {s : State} {e : CmdError} (h : s.errcode = some e) :
    errcodeWord s = BitVec.ofNat 32 e.code := by
  simp only [errcodeWord, h]

/-- Settles O20: STATUS bit by bit, the numbers of the errors, and the W1C write. -/
theorem statusFieldsAndClears : Obligations.StatusFieldsAndClears := by
  intro s v
  obtain ⟨hbusy, hdone, herr, hcoll, hzero⟩ := statusWord_bits s
  refine ⟨hbusy, hdone, herr, hcoll, hzero, rfl, rfl, rfl, fun hnone => ?_, fun row hrow he => ?_, _, rfl, rfl,
    ?_, ?_⟩
  · simp only [readOffset_errcode, errcodeWord, hnone]
  · rw [readOffset_errcode, errcodeWord_of_some he]
    clear he
    revert row
    decide
  · simp
  · simp

/-- Settles O21: IRQ_EN is the one CTRL bit that reads, and SRST decides what a write does. -/
theorem ctrlRegisterFields : Obligations.CtrlRegisterFields := by
  intro s v
  rw [readOffset_ctrl, writeOffset_ctrl, ctrlWord]
  have hlt : bit s.irqEn < 2 ^ 1 := by cases s.irqEn <;> decide
  refine ⟨?_, fun j hj => ofNat_getLsbD_of_lt hlt hj, writeCtrl_of_not_srst, writeCtrl_of_srst⟩
  cases s.irqEn <;> rfl

/-- Settles O24: LIMBS is at most 256, so PARAM's fields do not overlap. -/
theorem idAndParamAreHardwired : Obligations.IdAndParamAreHardwired := by
  refine ⟨fun s v hc => ?_, fun s hopw => ?_⟩
  · have hlimbs : s.cfg.opw / 32 < 2 ^ 16 := by omega
    have hor : 16 <<< 16 ||| s.cfg.opw / 32 = 16 * 2 ^ 16 + s.cfg.opw / 32 := by
      rw [← Nat.shiftLeft_add_eq_or_of_lt hlimbs, Nat.shiftLeft_eq]
    have hnat : (paramWord s.cfg).toNat = 16 * 2 ^ 16 + s.cfg.opw / 32 := by
      rw [paramWord, Config.limbs, BitVec.toNat_ofNat]
      omega
    simp only [readOffset_param, field, hnat, hor]
    refine ⟨rfl, rfl, ?_, ?_, ?_, rfl, rfl⟩ <;> omega
  · rw [readOffset_param, paramWord, Config.limbs, hopw]
    rfl

/-- Settles O25: read-only and reserved words have no write, and a busy write is the collision. -/
theorem ignoredAndDroppedWrites : Obligations.IgnoredAndDroppedWrites := by
  refine ⟨fun s off v hoff => ?_, fun s off v _ hoff => ?_, fun s off v hb hoff => ?_⟩
  · simp only [List.mem_cons, List.not_mem_nil, or_false] at hoff
    obtain rfl | rfl | rfl | rfl | rfl := hoff <;> rfl
  · have hres : locate s.cfg off = .reserved := locate_reserved _ (by omega)
    rw [readOffset, writeOffset, hres]
    exact ⟨rfl, rfl⟩
  · obtain hctl | ⟨i, k, hlt, hk, rfl⟩ := hoff
    · simp only [List.mem_cons, List.not_mem_nil, or_false] at hctl
      obtain rfl | rfl | rfl := hctl
      · exact writeOffset_cmd_of_busy v hb
      · exact writeOffset_rounds_of_busy v hb
      · exact writeOffset_retryLimit_of_busy v hb
    · exact writeOffset_limb_of_busy i hk v hlt hb

/-- Settles O26: each of the three ways of R306 clears DONE or IRQ_EN. -/
theorem irqIsDoneAndEnable : Obligations.IrqIsDoneAndEnable := by
  refine ⟨fun s => by simp [irq], rfl, fun s v hv => ?_, fun s w => rfl, fun s v hsrst hen => ?_⟩
  · simp [irq, hv]
  · rw [writeOffset_ctrl, writeCtrl_of_not_srst hsrst, hen]
    exact Bool.and_false _

/-- Settles O27: the idle writes, and ROUNDS cut to its 16 bits. -/
theorem roundsAndRetryLimitAreWritable : Obligations.RoundsAndRetryLimitAreWritable := by
  intro s v hb
  refine ⟨⟨_, writeOffset_rounds_of_idle v hb, rfl, ?_⟩, _, writeOffset_retryLimit_of_idle v hb, rfl, rfl⟩
  simp only [readOffset_rounds, BitVec.toNat_ofNat]
  omega

/-! ## The operand window -/

/-- Limb k carries bits [32k+31:32k] (R41). -/
theorem limbOf_getLsbD (v k j : Nat) :
    (limbOf v k).getLsbD j = (decide (j < 32) && v.testBit (32 * k + j)) := by
  rw [limbOf, BitVec.getLsbD_ofNat, Nat.testBit_div_two_pow, Nat.add_comm]

/-- Settles O22: the window's words are the register's limbs, and no wait writes a register. -/
theorem operandWindowLimbs : Obligations.OperandWindowLimbs := by
  intro s i k v hc hk
  rw [show 0x1000 + 0x400 * i.val + 4 * k = limbOffset i k from rfl]
  refine ⟨fun hlt => ⟨fun j hj => ?_, fun hb => ?_, fun hb => writeOffset_limb_of_busy i hk v hlt hb⟩,
    fun hge => ⟨readOffset_spareLimb i hk hge, ?_, fun hb => ?_⟩, fun c t h hb => ?_⟩
  · rw [readOffset_limb i hk hlt, limbOf_getLsbD, decide_eq_true hj, Bool.true_and]
  · exact ⟨_, writeOffset_limb_of_idle i hk v hlt hb, withLimb_testBit _ _ _⟩
  · rw [writeOffset_spareLimb i hk v hge]
    cases hb : s.busy <;> simp [unlessBusy, hb]
  · rw [writeOffset_spareLimb i hk v hge, unlessBusy_idle _ hb, id]
  · obtain ⟨f, w, rfl⟩ := exec_wait h hb
    rfl

/-- A limb write of v's own limb copies those bits of v (R41, R84). -/
theorem withLimb_limbOf_testBit (y v k j : Nat) :
    (withLimb y k (limbOf v k)).testBit j =
      if 32 * k ≤ j ∧ j < 32 * k + 32 then v.testBit j else y.testBit j := by
  rw [withLimb_testBit]
  split
  · rw [limbOf_getLsbD, decide_eq_true (by omega), Bool.true_and, Nat.add_sub_cancel' (by omega)]
  · rfl

theorem limbs_le {c : Config} (hc : c.wf) : c.limbs ≤ 256 := by
  rw [Config.limbs]
  omega

/-- `s` after the host has loaded x[i] with y (R84). -/
def loaded (i : Reg) (y : Nat) (s : State) : State := { s with x := s.x.set i y, resp := some .written }

@[simp] theorem loaded_loaded (i : Reg) (y z : Nat) (s : State) : loaded i z (loaded i y s) = loaded i z s := by
  simp [loaded]

@[simp] theorem loaded_x_same (i : Reg) (y : Nat) (s : State) : (loaded i y s).x[i] = y := by
  simp [loaded]

theorem takeTurn_limbWrite {s : State} (i : Reg) {k : Nat} (v : Word) (hc : s.cfg.wf) (hr : s.rst = false)
    (hb : s.busy = false) (hlt : k < s.cfg.limbs) :
    takeTurn (wrTurn s.cfg (limbOffset i k) v) s = .next (loaded i (withLimb s.x[i] k v) s) := by
  have hi := i.isLt
  have hk : k < 256 := hlt.trans_le (limbs_le hc)
  have hwrite := takeTurn_wrTurn v hc hr (off := limbOffset i k) (by rw [limbOffset]; omega)
    (by rw [limbOffset]; omega)
  rwa [writeOffset_limb_of_idle i hk v hlt hb] at hwrite

/-- The limb writes of `SET` from limb k on copy v's bits from 32k up into x[i] (R84). -/
theorem turns_setTurnsFrom {s : State} (i : Reg) (v : Nat) {k n : Nat} (hc : s.cfg.wf) (hr : s.rst = false)
    (hb : s.busy = false) (hn : k + (n + 1) ≤ s.cfg.limbs) :
    ∃ y, turns (setTurnsFrom s.cfg i v k (n + 1)) s = .next (loaded i y s) ∧
      ∀ j, y.testBit j = if 32 * k ≤ j ∧ j < 32 * (k + (n + 1)) then v.testBit j else s.x[i].testBit j := by
  induction n generalizing s k with
  | zero =>
    have hwrite := takeTurn_limbWrite i (limbOf v k) hc hr hb hn
    exact ⟨_, (turns_singleton _ _).trans hwrite, withLimb_limbOf_testBit _ _ _⟩
  | succ n ih =>
    have hwrite := takeTurn_limbWrite i (limbOf v k) hc hr hb (show k < s.cfg.limbs by omega)
    obtain ⟨y, hturns, hy⟩ := ih (s := loaded i (withLimb s.x[i] k (limbOf v k)) s) (k := k + 1) hc hr hb
      (show k + 1 + (n + 1) ≤ s.cfg.limbs by omega)
    refine ⟨y, ?_, fun j => ?_⟩
    · rw [loaded_loaded] at hturns
      exact (turns_cons_of_next _ hwrite).trans hturns
    · rw [hy, loaded_x_same, withLimb_limbOf_testBit]
      grind

/-- Writing all limbs of a value below 2^OPW loads the register with it (R84). -/
theorem turns_setTurns {s : State} (i : Reg) {v : Nat} (hc : s.cfg.wf) (hr : s.rst = false) (hb : s.busy = false)
    (hx : s.x[i] < 2 ^ s.cfg.opw) (hv : v < 2 ^ s.cfg.opw) :
    turns (setTurns s.cfg i v) s = .next (loaded i v s) := by
  obtain ⟨n, hn⟩ : ∃ n, s.cfg.limbs = n + 1 := ⟨s.cfg.limbs - 1, by rw [Config.limbs]; omega⟩
  obtain ⟨y, hturns, hy⟩ := turns_setTurnsFrom i v (k := 0) (n := n) hc hr hb (by omega)
  have hopw : 32 * (n + 1) = s.cfg.opw := by
    rw [← hn, Config.limbs]
    omega
  have hyv : y = v := Nat.eq_of_testBit_eq fun j => by
    rw [hy]
    by_cases hj : j < s.cfg.opw
    · rw [if_pos (by omega)]
    · have hpow := Nat.pow_le_pow_right (show 0 < 2 by decide) (Nat.not_lt.1 hj)
      rw [if_neg (by omega), Nat.testBit_lt_two_pow (hx.trans_le hpow), Nat.testBit_lt_two_pow (hv.trans_le hpow)]
  rw [setTurns, hn, hturns, hyv]

theorem limbOf_toNat (v k : Nat) : (limbOf v k).toNat = v / 2 ^ (32 * k) % 2 ^ 32 :=
  BitVec.toNat_ofNat _ _

/-- The limbs weigh 2^(32k) (R41). -/
theorem sum_limbOf (v n : Nat) :
    ∑ k ∈ Finset.range n, (limbOf v k).toNat * 2 ^ (32 * k) = v % 2 ^ (32 * n) := by
  induction n with
  | zero => simp [Nat.mod_one]
  | succ n ih =>
    rw [Finset.sum_range_succ, ih, limbOf_toNat, Nat.mul_succ, Nat.pow_add, Nat.mod_mul, Nat.mul_comm (2 ^ (32 * n))]

/-- An aligned word read in the window answers the word's lanes (R70–R73). -/
theorem hostAccess_read {s : State} {off : Nat} (hc : s.cfg.wf) (hr : s.rst = false) (hoff : off < 0x8000)
    (ha : off % 4 = 0) :
    hostAccess (.read (s.cfg.base + off) 4) s =
      .next { s with resp := some (.data (toLanes (readOffset s off))) } := by
  obtain ⟨-, -, -, hbase⟩ := hc
  have hw : inWindow s.cfg (s.cfg.base + off) = true := by simp [inWindow, hoff]
  have hadm : admitted (s.cfg.base + off) 4 = true := decide_eq_true ⟨rfl, by omega⟩
  simp [hostAccess, hr, hw, hadm]

/-- Lane j of limb k carries bits [32k+8j+7 : 32k+8j] (R73). -/
theorem toLanes_limbOf_toNat (v k : Nat) (j : Fin 4) :
    (toLanes (limbOf v k))[j].toNat = v / 2 ^ (32 * k + 8 * j.val) % 2 ^ 8 := by
  rw [toLanes_toNat, limbOf_toNat, Nat.pow_add, ← Nat.div_div_eq_div_mul]
  generalize v / 2 ^ (32 * k) = a
  fin_cases j <;> simp <;> omega

/-- Settles O23: `turns_setTurns` loads the value, whose limbs then carry it on the lanes. -/
theorem loadedOperandReadsBack : Obligations.LoadedOperandReadsBack := by
  intro s i v hc hr hb hx hv
  have hi := i.isLt
  have hread : ∀ k, k < s.cfg.limbs → readOffset (loaded i v s) (limbOffset i k) = limbOf v k := fun k hk => by
    rw [readOffset_limb (s := loaded i v s) i (hk.trans_le (limbs_le hc)) hk, loaded_x_same]
  refine ⟨loaded i v s, turns_setTurns i hc hr hb hx hv, rfl, ?_, fun k hk => ⟨toLanes (limbOf v k), ?_, ?_⟩,
    fun off lanes hoff ha => ⟨fromLanes lanes, fromLanes_toNat lanes, ?_⟩⟩
  · have hopw : 32 * (s.cfg.opw / 32) = s.cfg.opw := by omega
    calc v = v % 2 ^ (32 * (s.cfg.opw / 32)) := by rw [hopw, Nat.mod_eq_of_lt hv]
      _ = ∑ k ∈ Finset.range (s.cfg.opw / 32), (limbOf v k).toNat * 2 ^ (32 * k) := (sum_limbOf _ _).symm
      _ = _ := Finset.sum_congr rfl fun k hk => by
        rw [← hread k (Finset.mem_range.1 hk)]
        rfl
  · have haddr : s.cfg.base + 0x1000 + 0x400 * i.val + 4 * k = s.cfg.base + limbOffset i k := by
      rw [limbOffset]
      omega
    have hlt : k < 256 := lt_of_lt_of_le hk (limbs_le hc)
    rw [haddr, ← hread k hk]
    exact hostAccess_read (s := loaded i v s) hc hr (by rw [limbOffset]; omega) (by rw [limbOffset]; omega)
  · exact toLanes_limbOf_toNat v k
  · have hwrite := takeTurn_wrTurn (fromLanes lanes) hc hr hoff ha
    rwa [wrTurn, toLanes_fromLanes] at hwrite

end Sys2Proof.Machine

/-! The memory family (20_memory): where the machine stops, reads of the window, and accesses of another size or
alignment. -/

namespace Sys2Proof.Machine

open Sys2Proof

/-! ## A host access, by its address and size (R70, R72, R352) -/

/-- The byte address of a host access. -/
def Access.addr : Access → Nat
  | .read addr _ => addr
  | .write addr _ _ => addr

/-- The size of a host access, in bytes. -/
def Access.size : Access → Nat
  | .read _ size => size
  | .write _ size _ => size

@[simp] theorem Access.addr_read (addr size : Nat) : (Access.read addr size).addr = addr := rfl
@[simp] theorem Access.addr_write (addr size : Nat) (lanes : Lanes) :
    (Access.write addr size lanes).addr = addr := rfl
@[simp] theorem Access.size_read (addr size : Nat) : (Access.read addr size).size = size := rfl
@[simp] theorem Access.size_write (addr size : Nat) (lanes : Lanes) :
    (Access.write addr size lanes).size = size := rfl

theorem inWindow_iff (c : Config) (addr : Nat) :
    inWindow c addr = true ↔ c.base ≤ addr ∧ addr < c.base + 0x8000 :=
  decide_eq_true_iff

theorem inWindow_eq_false_iff (c : Config) (addr : Nat) :
    inWindow c addr = false ↔ addr < c.base ∨ c.base + 0x8000 ≤ addr := by
  rw [Bool.eq_false_iff, ne_eq, inWindow_iff]
  omega

theorem admitted_eq_false_iff (addr size : Nat) : admitted addr size = false ↔ size ≠ 4 ∨ addr % 4 ≠ 0 := by
  rw [admitted, decide_eq_false_iff_not]
  omega

section Access

variable {s : State} {a : Access}

/-- Under `rst` every access is refused (R352, I4). -/
theorem hostAccess_of_rst (a : Access) (hr : s.rst = true) : hostAccess a s = .refused .accessDuringReset := by
  simp [hostAccess, hr]

variable (hr : s.rst = false)
include hr

theorem hostAccess_of_outside (hw : inWindow s.cfg a.addr = false) :
    hostAccess a s = .fault (.outsideWindow a.addr) := by
  cases a <;> simp_all [hostAccess]

theorem hostAccess_of_unadmitted (hw : inWindow s.cfg a.addr = true) (ha : admitted a.addr a.size = false) :
    hostAccess a s = .next { s with resp := some .busError } := by
  cases a <;> simp_all [hostAccess]

/-- Every access inside the window is answered (R70). -/
theorem hostAccess_of_inside (hw : inWindow s.cfg a.addr = true) : ∃ t, hostAccess a s = .next t := by
  cases hadm : admitted a.addr a.size with
  | false => exact ⟨_, hostAccess_of_unadmitted hr hw hadm⟩
  | true => cases a <;> simp_all [hostAccess]

end Access

/-- Everything a host access can come to: `rst` and then its address decide whether it is answered. -/
theorem hostAccess_outcomes (a : Access) (s : State) :
    (∃ t, hostAccess a s = .next t) ∨
    (s.rst = true ∧ hostAccess a s = .refused .accessDuringReset) ∨
    (s.rst = false ∧ inWindow s.cfg a.addr = false ∧ hostAccess a s = .fault (.outsideWindow a.addr)) := by
  cases hr : s.rst with
  | true => exact .inr (.inl ⟨rfl, hostAccess_of_rst a hr⟩)
  | false =>
    cases hw : inWindow s.cfg a.addr with
    | true => exact .inl (hostAccess_of_inside hr hw)
    | false => exact .inr (.inr ⟨rfl, rfl, hostAccess_of_outside hr hw⟩)

/-! ## Only a host access stops the machine -/

theorem exec_answers_next (i : Instr) (s : State) : ∃ t, exec i s = .next t := by
  rw [exec_eq_runDrawing]
  cases hf : s.flight with
  | none => exact ⟨s, by simp only [runDrawing, hf]⟩
  | some f =>
    cases hb : progressOf i s.cfg f s.rng with
    | ended r rest => exact ⟨_, runDrawing_of_ended hf hb⟩
    | waiting w => exact ⟨_, runDrawing_of_waiting hf hb⟩

theorem execWord_answers_next (s : State) : ∃ t, execWord s = .next t := by
  unfold execWord
  split
  · exact exec_answers_next _ s
  · exact ⟨_, rfl⟩

theorem engineTurn_answers_next (s : State) : ∃ t, engineTurn s = .next t := by
  unfold engineTurn
  split
  · exact ⟨s, rfl⟩
  · split
    · exact execWord_answers_next s
    · exact ⟨s, rfl⟩

/-- The engine's turn, a delivery and a change of `rst` are always answered (R301). -/
theorem takeTurn_next_or_host (turn : Turn) (s : State) :
    (∃ t, takeTurn turn s = .next t) ∨ ∃ a, turn = .host a := by
  cases turn with
  | host a => exact .inr ⟨a, rfl⟩
  | engine => exact .inl (engineTurn_answers_next s)
  | rng v => exact .inl ⟨_, rfl⟩
  | rst level => exact .inl ⟨_, rfl⟩

/-- Everything a step can come to: it is answered, or it is a host access that is refused or faults. -/
theorem step_outcomes (s : State) :
    (∃ t, step s = .next t) ∨
    ∃ a rest, s.agenda = .host a :: rest ∧
      ((s.rst = true ∧ step s = .refused .accessDuringReset) ∨
       (s.rst = false ∧ inWindow s.cfg a.addr = false ∧ step s = .fault (.outsideWindow a.addr))) := by
  cases ha : s.agenda with
  | nil => exact .inl (step_of_agenda_nil ha ▸ engineTurn_answers_next s)
  | cons turn rest =>
    rw [step_of_agenda_cons ha]
    obtain hnext | ⟨a, rfl⟩ := takeTurn_next_or_host turn { s with agenda := rest }
    · exact .inl hnext
    · obtain hnext | hstop := hostAccess_outcomes a { s with agenda := rest }
      · exact .inl hnext
      · exact .inr ⟨a, rest, rfl, hstop⟩

theorem step_fault {s : State} {r : Fault} (h : step s = .fault r) :
    ∃ a rest, s.agenda = .host a :: rest ∧ s.rst = false ∧ r = .outsideWindow a.addr ∧
      inWindow s.cfg a.addr = false := by
  obtain ⟨t, ht⟩ | ⟨a, rest, hagenda, ⟨-, hstep⟩ | ⟨hr, hw, hstep⟩⟩ := step_outcomes s
  · cases ht.symm.trans h
  · cases hstep.symm.trans h
  · cases hstep.symm.trans h
    exact ⟨a, rest, hagenda, hr, rfl, hw⟩

theorem step_refused {s : State} {r : Refusal} (h : step s = .refused r) :
    r = .accessDuringReset ∧ s.rst = true ∧ ∃ a rest, s.agenda = .host a :: rest := by
  obtain ⟨t, ht⟩ | ⟨a, rest, hagenda, ⟨hr, hstep⟩ | ⟨-, -, hstep⟩⟩ := step_outcomes s
  · cases ht.symm.trans h
  · cases hstep.symm.trans h
    exact ⟨rfl, hr, a, rest, hagenda⟩
  · cases hstep.symm.trans h

/-- Settles O11: a stop is a host access's, whose address or whose `rst` decides it. -/
theorem stepStopsOnlyOnAHostAccess : Obligations.StepStopsOnlyOnAHostAccess := by
  refine ⟨fun s r h => ?_, fun s r h => step_refused h, fun s addr size lanes hr hout => ?_⟩
  · obtain ⟨a, rest, hagenda, hr, hfault, hw⟩ := step_fault h
    refine ⟨hr, rest, a.addr, hfault, (inWindow_eq_false_iff _ _).1 hw, ?_⟩
    cases a with
    | read addr size => exact .inl ⟨size, hagenda⟩
    | write addr size lanes => exact .inr ⟨size, lanes, hagenda⟩
  · have hw := (inWindow_eq_false_iff _ _).2 hout
    exact ⟨hostAccess_of_outside (a := .read addr size) hr hw,
      hostAccess_of_outside (a := .write addr size lanes) hr hw⟩

/-! ## Reads (R70, R73, R76) -/

/-- No word of the window is computed from the last bus response. -/
theorem readOffset_withResp (s : State) (r : Option Response) (off : Nat) :
    readOffset { s with resp := r } off = readOffset s off := by
  simp only [readOffset]
  cases locate s.cfg off <;> rfl

theorem hostAccess_read_withResp (s : State) (r : Option Response) (addr size : Nat) :
    hostAccess (.read addr size) { s with resp := r } = hostAccess (.read addr size) s := by
  simp only [hostAccess, readOffset_withResp]

theorem hostAccess_read_next {s t : State} {addr size : Nat} (h : hostAccess (.read addr size) s = .next t) :
    ∃ r, t = { s with resp := some r } := by
  obtain ⟨-, hresp | ⟨addr', lanes, hwrite, -⟩⟩ := hostAccess_cases h
  · exact hresp
  · cases hwrite

/-- Settles O17: a read changes the response only, which no read sees; a word's lanes carry its bits in order. -/
theorem readsHaveNoSideEffect : Obligations.ReadsHaveNoSideEffect := by
  refine ⟨fun s t addr size h => ?_, fun s off hc hr hoff ha => ?_⟩
  · obtain ⟨r, rfl⟩ := hostAccess_read_next h
    exact ⟨⟨r, rfl⟩, (hostAccess_read_withResp s (some r) addr size).trans h⟩
  · refine ⟨toLanes (readOffset s off), hostAccess_read hc hr hoff ha, fun j i hi => ?_⟩
    rw [toLanes_getLsbD, decide_eq_true hi, Bool.true_and]

/-! ## Accesses that are not aligned words (R72, R318) -/

/-- Settles O18: reads and writes go through the same admission test, which comes before any effect. -/
theorem unadmittedAccessesAreBusErrors : Obligations.UnadmittedAccessesAreBusErrors := by
  intro s addr size lanes hr hlow hhigh hbad
  have hw := (inWindow_iff s.cfg addr).2 ⟨hlow, hhigh⟩
  have hadm := (admitted_eq_false_iff addr size).2 hbad
  exact ⟨hostAccess_of_unadmitted (a := .read addr size) hr hw hadm,
    hostAccess_of_unadmitted (a := .write addr size lanes) hr hw hadm⟩

end Sys2Proof.Machine

/-! The encoding family (30_encoding): the rows of the opcode map as the decoder reads them, the round trip between
words and commands, illegal words, and the assembler. -/

namespace Sys2Proof

/-! ## A row of the opcode map (R104, R105) -/

/-- The fields a row marks "must be 0", each by its lowest bit and its width (R104). -/
def reservedFields : Mnemonic → List (Nat × Nat)
  | .mov => [(0, 16)]
  | .ldi => [(16, 4)]
  | .mul => [(0, 12)]
  | .modmul => [(0, 8)]
  | .modpow => [(0, 8)]
  | .modinv => [(12, 4), (0, 8)]
  | .fitw => []
  | .mrtest => [(20, 4), (0, 16)]
  | .primegen => [(16, 4)]
  | .crt => [(0, 4)]
  | .sqrt4 => [(12, 4), (0, 4)]
  | .transform => [(12, 4), (0, 4)]

/-- The row's "must be 0" fields hold 0 in `w` (R104, R110). -/
def reservedClear (m : Mnemonic) (w : Word) : Bool := (reservedFields m).all fun f => field w f.1 f.2 == 0

/-- The command of row `m` whose operands are the fields of `w` (R101, R102, R104). -/
def rowCommand (m : Mnemonic) (w : Word) : Instr :=
  match m with
  | .mov => .mov (dField w) (aField w)
  | .ldi => .ldi (dField w) (immField w)
  | .mul => .mul (dField w) (aField w) (bField w)
  | .modmul => .modmul (dField w) (aField w) (bField w) (cField w)
  | .modpow => .modpow (dField w) (aField w) (bField w) (cField w)
  | .modinv => .modinv (dField w) (aField w) (cField w)
  | .fitw => .fitw (dField w) (aField w) (immField w)
  | .mrtest => .mrtest (aField w)
  | .primegen => .primegen (dField w) (immField w)
  | .crt => .crt (dField w) (aField w) (bField w) (cField w) (eField w)
  | .sqrt4 => .sqrt4 (dField w) (aField w) (cField w) (eField w)
  | .transform => .transform (dField w) (aField w) (cField w) (eField w)

@[simp] theorem rowCommand_mnemonic (m : Mnemonic) (w : Word) : (rowCommand m w).mnemonic = m := by
  cases m <;> rfl

/-- SQRT4's row is the only one with a side condition (R105). -/
theorem rowCommand_wf_iff (m : Mnemonic) (w : Word) :
    (rowCommand m w).wf = true ↔ (m = .sqrt4 → (dField w).val ≤ 12) := by
  cases m <;> simp [rowCommand, Instr.wf]

/-- The decoder on an assigned opcode: its row's reserved fields, then its row's side condition (R104, R110). -/
theorem decode_of_opField {m : Mnemonic} {w : Word} (h : opField w = opcode m) :
    decode w =
      if reservedClear m w then
        if (rowCommand m w).wf then .ok (rowCommand m w) else .error .sqrt4Destination
      else .error .reservedField := by
  cases m <;> simp [decode, h, opcode, guarded, reservedClear, reservedFields, rowCommand, Instr.wf]

/-- The opcodes of the rows, in the order of the opcode map (R104). -/
theorem mem_opcodes_iff (n : Nat) :
    n ∈ [0x01, 0x02, 0x03, 0x10, 0x11, 0x12, 0x13, 0x20, 0x30, 0x40, 0x41, 0x50] ↔ ∃ m, n = opcode m := by
  constructor
  · intro h
    obtain ⟨m, -, rfl⟩ := (List.mem_map (f := opcode) (l := [.mov, .ldi, .mul, .modmul, .modpow, .modinv, .fitw,
      .mrtest, .primegen, .crt, .sqrt4, .transform])).1 h
    exact ⟨m, rfl⟩
  · rintro ⟨m, rfl⟩
    cases m <;> decide

theorem opcode_lt (m : Mnemonic) : opcode m < 256 := by
  cases m <;> decide

theorem opcode_injective : Function.Injective opcode := by
  intro m m'
  cases m <;> cases m' <;> decide

/-- The decoder on an opcode of no row (R110). -/
theorem decode_of_unassigned {w : Word} (h : ¬ ∃ m, opField w = opcode m) :
    decode w = .error .unassignedOpcode := by
  rw [← mem_opcodes_iff] at h
  unfold decode
  split
  case h_13 => rfl
  all_goals
    rename_i hop
    simp [hop] at h

/-- Everything that decodes is the command of a row, its reserved fields 0 and its side condition met. -/
theorem decode_ok_iff (w : Word) (i : Instr) :
    decode w = .ok i ↔
      ∃ m, opField w = opcode m ∧ reservedClear m w = true ∧ (rowCommand m w).wf = true ∧ i = rowCommand m w := by
  constructor
  · intro hd
    by_cases hrow : ∃ m, opField w = opcode m
    · obtain ⟨m, hop⟩ := hrow
      rw [decode_of_opField hop] at hd
      split at hd
      · split at hd
        · cases hd
          exact ⟨m, hop, ‹_›, ‹_›, rfl⟩
        · cases hd
      · cases hd
    · rw [decode_of_unassigned hrow] at hd
      cases hd
  · rintro ⟨m, hop, hclear, hwf, rfl⟩
    rw [decode_of_opField hop, if_pos hclear, if_pos hwf]

/-- An assigned opcode is rejected at its row's reserved fields or at its side condition (R110). -/
theorem decode_error_iff {m : Mnemonic} {w : Word} (hop : opField w = opcode m) :
    (∃ r, decode w = .error r) ↔ reservedClear m w = false ∨ (rowCommand m w).wf = false := by
  rw [decode_of_opField hop]
  cases reservedClear m w <;> cases (rowCommand m w).wf <;> simp

/-- An opcode belongs to one row (R104). -/
theorem exists_row_iff {m : Mnemonic} {w : Word} (hop : opField w = opcode m) (P : Mnemonic → Prop) :
    (∃ m', opField w = opcode m' ∧ P m') ↔ P m := by
  simp [hop, opcode_injective.eq_iff]

/-! ## From words to commands and back (R101, R102, R106) -/

/-- A field is its low part and its high part. -/
theorem field_add (w : Word) (lo n k : Nat) : field w lo (n + k) = field w lo n + 2 ^ n * field w (lo + n) k := by
  simp only [field, Nat.pow_add, Nat.mod_mul, Nat.div_div_eq_div_mul]

/-- The fields of several register positions, and the word, in the fields of format R (R101). -/
theorem fields_eq_formatR (w : Word) :
    field w 0 8 = field w 4 4 * 2 ^ 4 + field w 0 4 ∧
    field w 0 12 = field w 8 4 * 2 ^ 8 + field w 0 8 ∧
    field w 0 16 = field w 12 4 * 2 ^ 12 + field w 0 12 ∧
    w.toNat = opField w * 2 ^ 24 + field w 20 4 * 2 ^ 20 + field w 16 4 * 2 ^ 16 + field w 0 16 := by
  have h8 := field_add w 0 4 4
  have h12 := field_add w 0 8 4
  have h16 := field_add w 0 12 4
  have h20 := field_add w 0 16 4
  have h24 := field_add w 0 20 4
  have h32 := field_add w 0 24 8
  have hw : w.toNat = field w 0 32 := by rw [field, Nat.pow_zero, Nat.div_one, Nat.mod_eq_of_lt w.isLt]
  simp only [opField, Nat.zero_add, Nat.reduceAdd] at *
  omega

theorem immField_toNat (w : Word) : (immField w).toNat = field w 0 16 :=
  Nat.mod_eq_of_lt (Nat.mod_lt _ (Nat.two_pow_pos 16))

/-- No bit of a row's word is outside its opcode, its reserved fields and its operands (R104): row by row, the two
words are one sum of fields. -/
theorem encode_rowCommand {m : Mnemonic} {w : Word} (hop : opField w = opcode m)
    (hclear : reservedClear m w = true) : encode (rowCommand m w) = w := by
  obtain ⟨h8, h12, h16, hw⟩ := fields_eq_formatR w
  have hword := w.ofNat_toNat 32
  rw [hw, BitVec.setWidth_eq] at hword
  refine Eq.trans ?_ hword
  cases m <;>
    simp only [opcode, reservedClear, reservedFields, List.all_cons, List.all_nil, Bool.and_true,
      Bool.and_eq_true, beq_iff_eq] at hop hclear <;>
    simp only [rowCommand, encode, formatR, formatI, dField, aField, bField, cField, eField, regField_val,
      immField_toNat] <;>
    refine congrArg (BitVec.ofNat 32) ?_ <;>
    omega

/-- The operand fields of a format R word (R101). -/
theorem formatR_fields {op d a b c e : Nat} (ha : a < 16) (hb : b < 16) (hc : c < 16) (he : e < 16) :
    dField (formatR op d a b c e) = Fin.ofNat 16 d ∧ aField (formatR op d a b c e) = Fin.ofNat 16 a ∧
    bField (formatR op d a b c e) = Fin.ofNat 16 b ∧ cField (formatR op d a b c e) = Fin.ofNat 16 c ∧
    eField (formatR op d a b c e) = Fin.ofNat 16 e := by
  refine ⟨?_, ?_, ?_, ?_, ?_⟩ <;> apply Fin.ext <;>
    simp only [dField, aField, bField, cField, eField, regField, formatR, BitVec.toNat_ofNat, Fin.ofNat] <;>
    omega

/-- The operand fields of a format I word (R102). -/
theorem formatI_fields {op d a : Nat} (ha : a < 16) (imm : Imm) :
    dField (formatI op d a imm.toNat) = Fin.ofNat 16 d ∧ aField (formatI op d a imm.toNat) = Fin.ofNat 16 a ∧
    immField (formatI op d a imm.toNat) = imm := by
  have himm := imm.isLt
  refine ⟨Fin.ext ?_, Fin.ext ?_, BitVec.eq_of_toNat_eq ?_⟩ <;>
    simp only [dField, aField, immField, regField, field, formatI, BitVec.toNat_ofNat, Fin.ofNat] <;>
    omega

/-- The family `Laws.Opcode` as one statement (R100, R104). -/
theorem opField_encode (i : Instr) : opField (encode i) = opcode i.mnemonic := by
  cases i with
  | mov d a => exact Laws.Opcode.mov d a
  | ldi d imm => exact Laws.Opcode.ldi d imm
  | mul d a b => exact Laws.Opcode.mul d a b
  | modmul d a b c => exact Laws.Opcode.modmul d a b c
  | modpow d a b c => exact Laws.Opcode.modpow d a b c
  | modinv d a c => exact Laws.Opcode.modinv d a c
  | fitw d a width => exact Laws.Opcode.fitw d a width
  | mrtest a => exact Laws.Opcode.mrtest a
  | primegen d bits => exact Laws.Opcode.primegen d bits
  | crt d a b c e => exact Laws.Opcode.crt d a b c e
  | sqrt4 d a c e => exact Laws.Opcode.sqrt4 d a c e
  | transform d a c e => exact Laws.Opcode.transform d a c e

/-- The encoder writes 0 into the fields its row reserves (R104). -/
theorem reservedClear_encode (i : Instr) : reservedClear i.mnemonic (encode i) = true := by
  cases i <;>
    simp only [Instr.mnemonic, reservedClear, reservedFields, encode, List.all_cons, List.all_nil, Bool.and_true,
      Bool.and_eq_true, beq_iff_eq, field, formatR, formatI, BitVec.toNat_ofNat] <;>
    omega

/-- The operand fields of a command's word are its operands (R101, R102). -/
theorem rowCommand_encode (i : Instr) : rowCommand i.mnemonic (encode i) = i := by
  cases i <;> simp [Instr.mnemonic, rowCommand, encode, formatR_fields, formatI_fields]

/-! ## The match/mask table (R105) -/

/-- The word with ones in a field and zeros elsewhere. -/
def fieldMask (lo n : Nat) : Word := BitVec.ofNat 32 ((2 ^ n - 1) * 2 ^ lo)

/-- Masking a field keeps its number in place. -/
theorem and_fieldMask (w : Word) (lo n : Nat) : w &&& fieldMask lo n = BitVec.ofNat 32 (field w lo n * 2 ^ lo) := by
  refine BitVec.eq_of_getLsbD_eq fun k hk => ?_
  simp only [fieldMask, BitVec.getLsbD_and, BitVec.getLsbD_ofNat, Nat.testBit_mul_two_pow,
    Nat.testBit_two_pow_sub_one, field_testBit, hk, decide_true, Bool.true_and]
  by_cases hlo : lo ≤ k
  · simp [hlo, Bool.and_comm]
  · simp [hlo]

/-- A field holds a number exactly when the masked word is that number in the field's place. -/
theorem field_eq_iff_and_fieldMask (w : Word) {lo n v : Nat} (hv : v * 2 ^ lo < 2 ^ 32) :
    field w lo n = v ↔ w &&& fieldMask lo n = BitVec.ofNat 32 (v * 2 ^ lo) := by
  have hfield : field w lo n * 2 ^ lo < 2 ^ 32 :=
    calc field w lo n * 2 ^ lo ≤ w.toNat / 2 ^ lo * 2 ^ lo := Nat.mul_le_mul_right _ (Nat.mod_le _ _)
      _ ≤ w.toNat := Nat.div_mul_le_self _ _
      _ < 2 ^ 32 := w.isLt
  rw [and_fieldMask, ← BitVec.toNat_inj, BitVec.toNat_ofNat, BitVec.toNat_ofNat, Nat.mod_eq_of_lt hfield,
    Nat.mod_eq_of_lt hv, Nat.mul_left_inj (Nat.two_pow_pos lo).ne']

/-- A row's mask is the opcode field and the reserved fields; its match is the opcode in place (R105). -/
theorem matchMask_eq (m : Mnemonic) :
    (matchMask m).1 = BitVec.ofNat 32 (opcode m * 2 ^ 24) ∧
    (matchMask m).2 &&& 0xFF000000 = fieldMask 24 8 ∧
    (matchMask m).2 &&& 0x00FFFFFF = (reservedFields m).foldr (fun f r => fieldMask f.1 f.2 ||| r) 0#32 := by
  cases m <;> exact ⟨rfl, rfl, rfl⟩

/-- Masking several fields at once tests each for 0. -/
theorem and_fieldMasks_eq_zero_iff (w : Word) (fields : List (Nat × Nat)) :
    w &&& fields.foldr (fun f r => fieldMask f.1 f.2 ||| r) 0#32 = 0#32 ↔
      (fields.all fun f => field w f.1 f.2 == 0) = true := by
  induction fields with
  | nil => simp
  | cons f fields ih =>
    rw [List.foldr_cons, BitVec.and_or_distrib_left, BitVec.or_eq_zero_iff, ih, List.all_cons, Bool.and_eq_true,
      beq_iff_eq, field_eq_iff_and_fieldMask w (v := 0) (by simp), Nat.zero_mul]

/-- The reserved fields are 0 exactly when the mask below the opcode finds no 1 (R104, R105). -/
theorem reservedClear_iff_and_mask (m : Mnemonic) (w : Word) :
    reservedClear m w = true ↔ w &&& ((matchMask m).2 &&& 0x00FFFFFF) = 0 := by
  obtain ⟨-, -, hlow⟩ := matchMask_eq m
  rw [hlow]
  exact (and_fieldMasks_eq_zero_iff w (reservedFields m)).symm

/-- Two words are equal when they agree in OP and below it. -/
theorem eq_iff_and_halves (x y : Word) :
    x = y ↔ x &&& 0xFF000000 = y &&& 0xFF000000 ∧ x &&& 0x00FFFFFF = y &&& 0x00FFFFFF := by
  have halves (v : Word) : v = v &&& 0xFF000000 ||| v &&& 0x00FFFFFF := by
    rw [← BitVec.and_or_distrib_left, show (0xFF000000 ||| 0x00FFFFFF : Word) = BitVec.allOnes 32 from rfl,
      BitVec.and_allOnes]
  refine ⟨by rintro rfl; exact ⟨rfl, rfl⟩, fun ⟨hhigh, hlow⟩ => ?_⟩
  rw [halves x, halves y, hhigh, hlow]

/-- The match/mask test is the opcode and the reserved fields (R104, R105). -/
theorem fitsRow_iff (m : Mnemonic) (w : Word) :
    fitsRow m w ↔ opField w = opcode m ∧ reservedClear m w = true := by
  obtain ⟨hmatch, hhigh, -⟩ := matchMask_eq m
  have hop : opcode m * 2 ^ 24 < 2 ^ 32 := by have := opcode_lt m; omega
  have hmatchHigh : (matchMask m).1 &&& 0xFF000000 = (matchMask m).1 := by cases m <;> rfl
  have hmatchLow : (matchMask m).1 &&& 0x00FFFFFF = 0 := by cases m <;> rfl
  rw [fitsRow, eq_iff_and_halves, BitVec.and_assoc, BitVec.and_assoc, hhigh, hmatchHigh, hmatchLow, hmatch,
    ← reservedClear_iff_and_mask, opField, field_eq_iff_and_fieldMask w hop]

end Sys2Proof

namespace Sys2Proof.Machine

open Sys2Proof

/-! ## Words and commands (R105, R106, R110) -/

/-- Settles O1: an encoded command carries its row's opcode, its reserved fields are 0, and its operand fields are
the command's. -/
theorem decodeInvertsEncode : Obligations.DecodeInvertsEncode := by
  intro i hwf
  rw [decode_ok_iff]
  exact ⟨i.mnemonic, opField_encode i, reservedClear_encode i, (rowCommand_encode i).symm ▸ hwf,
    (rowCommand_encode i).symm⟩

/-- Settles O2: what decodes is its row's command, whose word `encode_rowCommand` gives. -/
theorem encodeInvertsDecode : Obligations.EncodeInvertsDecode := by
  intro w i hd
  obtain ⟨m, hop, hclear, hwf, rfl⟩ := (decode_ok_iff w i).1 hd
  exact ⟨encode_rowCommand hop hclear, hwf⟩

/-- Settles O3: a row's test is its opcode and its reserved fields, and no two rows share an opcode. -/
theorem decodeIsTheMatchMaskTable : Obligations.DecodeIsTheMatchMaskTable := by
  refine ⟨fun w m => ?_, fun w m m' hm hm' => ?_⟩
  · rw [fitsRow_iff, ← rowCommand_wf_iff]
    constructor
    · rintro ⟨i, hd, rfl⟩
      obtain ⟨m, hop, hclear, hwf, rfl⟩ := (decode_ok_iff w i).1 hd
      rw [rowCommand_mnemonic]
      exact ⟨⟨hop, hclear⟩, hwf⟩
    · rintro ⟨⟨hop, hclear⟩, hwf⟩
      exact ⟨rowCommand m w, (decode_ok_iff w _).2 ⟨m, hop, hclear, hwf, rfl⟩, rowCommand_mnemonic m w⟩
  · rw [fitsRow_iff] at hm hm'
    exact opcode_injective (hm.1.symm.trans hm'.1)

/-- Settles O4: the three rejections of an opcode and its row; the accept and the engine's turn are those of
the CMD write. -/
theorem illegalWordsCompleteWithIllegalCommand : Obligations.IllegalWordsCompleteWithIllegalCommand := by
  refine ⟨fun w => ?_, ⟨.unassignedOpcode, rfl⟩, fun w s hb => writeOffset_cmd_of_idle w hb,
    fun s r hr hb hd => engineTurn_of_reject hr hb hd⟩
  rw [mem_opcodes_iff]
  by_cases hrow : ∃ m, opField w = opcode m
  · obtain ⟨m, hop⟩ := hrow
    have hsqrt4 : opField w = 0x41 ↔ m = .sqrt4 := by rw [hop]; exact opcode_injective.eq_iff (b := .sqrt4)
    have hwf : (rowCommand m w).wf = false ↔ m = .sqrt4 ∧ 13 ≤ (dField w).val := by
      rw [Bool.eq_false_iff, ne_eq, rowCommand_wf_iff, Classical.not_imp, Nat.not_le, Nat.lt_iff_add_one_le]
    rw [decode_error_iff hop, exists_row_iff hop, hsqrt4, hwf, ne_eq, ← reservedClear_iff_and_mask,
      Bool.not_eq_true, or_iff_right (not_not.2 ⟨m, hop⟩)]
  · exact iff_of_true ⟨_, decode_of_unassigned hrow⟩ (.inl hrow)

/-! ## The assembler (R120–R124) -/

/-- The assembler emits well-formed commands only: SQRT4 with d > 12 is a rejected line (R122). -/
theorem assembleInstr_wf {line : List Char} {i : Instr} (h : assembleInstr line = .ok i) : i.wf = true := by
  unfold assembleInstr at h
  simp only at h
  split at h
  · cases h
  · split at h
    · cases h
    · split at h
      · cases h
        assumption
      · cases h

theorem assemble_ok {line : List Char} {w : Word} (h : assemble line = .ok w) :
    ∃ i, assembleInstr line = .ok i ∧ encode i = w := by
  rw [assemble] at h
  cases hi : assembleInstr line with
  | error e =>
    rw [hi] at h
    cases h
  | ok i =>
    rw [hi] at h
    cases h
    exact ⟨i, rfl, rfl⟩

/-- Settles O7: the command a line spells is well-formed, so its word decodes to it. -/
theorem assemblerEmitsNoIllegalWord : Obligations.AssemblerEmitsNoIllegalWord := by
  refine ⟨fun line w h => ?_, fun line d a c e h => ?_⟩
  · obtain ⟨i, hi, rfl⟩ := assemble_ok h
    exact ⟨i, decodeInvertsEncode i (assembleInstr_wf hi), assembleInstr_wf hi⟩
  · exact of_decide_eq_true (assembleInstr_wf h)

/-- Settles O5: the assembler and the decoder run on each line and its word. -/
theorem encodingExamples : Obligations.EncodingExamples := by
  unfold Obligations.EncodingExamples
  simp only [List.forall_mem_cons]
  refine ⟨?_, ?_, ?_, ?_, ?_, ?_, ?_, ?_, ?_, ?_, ?_, ?_, ?_, ?_, List.forall_mem_nil _⟩ <;>
    exact ⟨rfl, rfl⟩

/-- A command that draws nothing and completes with a value writes it to its destination (R46). -/
theorem run_of_ok_reg {body : Config → Snapshot → Except CmdError Commit} {s : State} {f : Flight} {d : Reg} {v : Nat}
    (hf : s.flight = some f) (hb : body s.cfg f.snap = .ok (Commit.reg d v)) :
    run body s = .next (wroteReg d v s) := by
  rw [run_of_flight hf, hb]
  rfl

/-- Settles O6: LDI's immediate is 0, MODMUL of a register with itself is its square's residue, and MUL's product
fits. -/
theorem pseudoInstructionsExpand : Obligations.PseudoInstructionsExpand := by
  refine ⟨fun _ => rfl, fun _ _ _ => rfl, fun _ _ _ => rfl, fun s f d a c hf => ⟨?_, fun hc => ?_, fun hlt => ?_⟩⟩
  · rw [Pseudo.expand, exec, execLdi]
    exact run_of_ok_reg hf rfl
  · have hvalue : modmulValue f.snap.x[a] f.snap.x[a] f.snap.x[c] = .ok (f.snap.x[a] ^ 2 % f.snap.x[c]) := by
      rw [modmulValue, if_neg hc, Nat.pow_two]
    rw [Pseudo.expand, exec, execModmul]
    exact run_of_ok_reg hf (congrArg (Except.map (Commit.reg d)) hvalue)
  · have hvalue : mulValue s.cfg.opw f.snap.x[a] f.snap.x[c] = .ok (f.snap.x[a] * f.snap.x[c]) := by
      rw [mulValue, if_neg (Nat.not_le.2 hlt)]
    rw [Pseudo.expand, exec, execMul]
    exact run_of_ok_reg hf (congrArg (Except.map (Commit.reg d)) hvalue)

end Sys2Proof.Machine

/-! The move family (40_move): MOV, LDI and MUL, by their words and by their effect on a command in flight. -/

namespace Sys2Proof

/-- The words of a well-formed command: its opcode, its operands, and 0 in the fields its row reserves (R104–R106). -/
theorem decode_eq_ok_iff {i : Instr} (hwf : i.wf = true) (w : Word) :
    decode w = .ok i ↔
      opField w = opcode i.mnemonic ∧ rowCommand i.mnemonic w = i ∧ reservedClear i.mnemonic w = true := by
  rw [decode_ok_iff]
  constructor
  · rintro ⟨m, hop, hclear, -, rfl⟩
    rw [rowCommand_mnemonic]
    exact ⟨hop, rfl, hclear⟩
  · rintro ⟨hop, hrow, hclear⟩
    exact ⟨i.mnemonic, hop, hclear, hrow.symm ▸ hwf, hrow.symm⟩

theorem immField_eq_iff (w : Word) (imm : Imm) : immField w = imm ↔ field w 0 16 = imm.toNat := by
  rw [← BitVec.toNat_inj, immField_toNat]

end Sys2Proof

namespace Sys2Proof.Machine

open Sys2Proof

/-- A command that draws nothing and completes with an error writes no result (R46, R300). -/
theorem run_of_error {body : Config → Snapshot → Except CmdError Commit} {s : State} {f : Flight} {e : CmdError}
    (hf : s.flight = some f) (hb : body s.cfg f.snap = .error e) : run body s = .next (failedWith e s) := by
  rw [run_of_flight hf, hb]
  rfl

/-! ## MOV (R140) -/

theorem exec_mov {s : State} {f : Flight} (hf : s.flight = some f) (d a : Reg) :
    exec (.mov d a) s = .next (wroteReg d f.snap.x[a] s) := by
  rw [exec, execMov]
  exact run_of_ok_reg hf rfl

/-- Writing a register's own value completes and changes nothing else. -/
theorem wroteReg_self (a : Reg) (s : State) : wroteReg a s.x[a] s = { s with flight := none, done := true } := by
  have hx : s.x.set a s.x[a] = s.x := Vector.set_getElem_self a.isLt
  rw [wroteReg, hx]

/-- Settles O33: MOV's row reserves B, C, E and Z, and the value it writes is the snapshot's. -/
theorem movCopiesARegister : Obligations.MovCopiesARegister := by
  refine ⟨fun w d a => ?_, fun s p k d a hf => ⟨exec_mov hf d a, ?_⟩⟩
  · rw [decode_eq_ok_iff rfl]
    simp [Instr.mnemonic, opcode, rowCommand, reservedClear, reservedFields, and_assoc]
  · rintro rfl
    exact (exec_mov hf a a).trans (congrArg _ (wroteReg_self a s))

/-! ## LDI (R141) -/

theorem exec_ldi {s : State} {f : Flight} (hf : s.flight = some f) (d : Reg) (imm : Imm) :
    exec (.ldi d imm) s = .next (wroteReg d imm.toNat s) := by
  rw [exec, execLdi]
  exact run_of_ok_reg hf rfl

/-- Settles O34: LDI's row reserves A only, and its immediate is the low half of the word. -/
theorem ldiLoadsTheImmediate : Obligations.LdiLoadsTheImmediate := by
  refine ⟨fun w d imm => ?_, fun s p k d imm hf => exec_ldi hf d imm⟩
  rw [decode_eq_ok_iff rfl, ← immField_eq_iff, and_comm (a := field w 16 4 = 0)]
  simp [Instr.mnemonic, opcode, rowCommand, reservedClear, reservedFields, and_assoc]

/-! ## MUL (R142) -/

theorem mulValue_of_fits {opw a b : Nat} (h : a * b < 2 ^ opw) : mulValue opw a b = .ok (a * b) :=
  if_neg (Nat.not_le.2 h)

theorem mulValue_of_overflow {opw a b : Nat} (h : 2 ^ opw ≤ a * b) : mulValue opw a b = .error .overflow :=
  if_pos h

theorem exec_mul_of_fits {s : State} {f : Flight} (hf : s.flight = some f) (d : Reg) {a b : Reg}
    (h : f.snap.x[a] * f.snap.x[b] < 2 ^ s.cfg.opw) :
    exec (.mul d a b) s = .next (wroteReg d (f.snap.x[a] * f.snap.x[b]) s) := by
  rw [exec, execMul]
  exact run_of_ok_reg hf (congrArg (Except.map (Commit.reg d)) (mulValue_of_fits h))

theorem exec_mul_of_overflow {s : State} {f : Flight} (hf : s.flight = some f) (d : Reg) {a b : Reg}
    (h : 2 ^ s.cfg.opw ≤ f.snap.x[a] * f.snap.x[b]) :
    exec (.mul d a b) s = .next (failedWith .overflow s) := by
  rw [exec, execMul]
  exact run_of_error hf (congrArg (Except.map (Commit.reg d)) (mulValue_of_overflow h))

/-- Settles O35: MUL's row reserves C, E and Z, and its product either fits or fails. -/
theorem mulIsExactOrOverflows : Obligations.MulIsExactOrOverflows := by
  refine ⟨fun w d a b => ?_, fun s p k d a b hf => ⟨exec_mul_of_fits hf d, exec_mul_of_overflow hf d⟩⟩
  rw [decode_eq_ok_iff rfl]
  simp [Instr.mnemonic, opcode, rowCommand, reservedClear, reservedFields, and_assoc]

end Sys2Proof.Machine

/-! The big-integer family (41_bigint_adapter): MODMUL, MODPOW, MODINV and FITW, by their words and by their effect on
a command in flight, with what the exponentiation loop and the extended Euclid loop compute. -/

namespace Sys2Proof.Machine

open Sys2Proof

/-! ## Completing with a value for one register, or with an error (R46, R300) -/

theorem complete_map_reg_ok (d : Reg) (v : Nat) (s : State) :
    complete ((Except.ok v).map (Commit.reg d)) s = wroteReg d v s := rfl

theorem complete_map_reg_error (d : Reg) (e : CmdError) (s : State) :
    complete ((Except.error e).map (Commit.reg d)) s = failedWith e s := rfl

/-! ## MODMUL (R160) -/

theorem modmulValue_of_pos (a b : Nat) {m : Nat} (h : 0 < m) : modmulValue a b m = .ok (a * b % m) :=
  if_neg (by omega)

@[simp] theorem modmulValue_zero (a b : Nat) : modmulValue a b 0 = .error .invalidArgument := rfl

theorem exec_modmul {s : State} {f : Flight} (hf : s.flight = some f) (d a b c : Reg) :
    exec (.modmul d a b c) s =
      .next (complete ((modmulValue f.snap.x[a] f.snap.x[b] f.snap.x[c]).map (Commit.reg d)) s) := by
  rw [exec, execModmul]
  exact run_of_flight hf

/-- Settles O36: MODMUL's row reserves E and Z, and its result is the residue by definition of `modmulValue`. -/
theorem modmulReducesTheProduct : Obligations.ModmulReducesTheProduct := by
  refine ⟨fun w d a b c => ?_, fun s p k d a b c hf => ⟨fun hm => ?_, fun hm => ?_⟩⟩
  · rw [decode_eq_ok_iff rfl]
    simp [Instr.mnemonic, opcode, rowCommand, reservedClear, reservedFields, and_assoc]
  · rw [exec_modmul hf, modmulValue_of_pos _ _ hm, complete_map_reg_ok]
    rfl
  · rw [exec_modmul hf, hm, modmulValue_zero, complete_map_reg_error]

/-! ## MODPOW (R162) -/

theorem lt_two_pow_bitlen (v : Nat) : v < 2 ^ bitlen v := by
  rw [bitlen]
  split
  · omega
  · exact Nat.lt_log2_self

/-- One turn of the loop of R162: from the power of the exponent's bits above i to that of its bits from i up. -/
theorem powMod_turn {b e m i acc : Nat} (hacc : acc = b ^ (e / 2 ^ (i + 1)) % m) :
    (if e.testBit i then acc * acc % m * b % m else acc * acc % m) = b ^ (e / 2 ^ i) % m := by
  have hhigh : e / 2 ^ (i + 1) = e / 2 ^ i / 2 := by rw [Nat.pow_succ, Nat.div_div_eq_div_mul]
  have hsquare : acc * acc % m = b ^ (2 * (e / 2 ^ i / 2)) % m := by
    rw [hacc, ← Nat.mul_mod, ← Nat.pow_add, hhigh, Nat.two_mul]
  rw [hsquare, Nat.testBit_eq_decide_div_mod_eq]
  by_cases hodd : e / 2 ^ i % 2 = 1
  · have hsplit : e / 2 ^ i = 2 * (e / 2 ^ i / 2) + 1 := by omega
    rw [if_pos (decide_eq_true hodd), Nat.mod_mul_mod, ← Nat.pow_succ, Nat.succ_eq_add_one, ← hsplit]
  · have hsplit : e / 2 ^ i = 2 * (e / 2 ^ i / 2) := by omega
    rw [if_neg (by simpa using hodd), ← hsplit]

/-- The loop of R162 completes the power: from that of the exponent's bits from i up to that of the exponent. -/
theorem powModLoop_eq (b e m i : Nat) : powModLoop b e m i (b ^ (e / 2 ^ i) % m) = b ^ e % m := by
  induction i with
  | zero => rw [powModLoop, Nat.pow_zero, Nat.div_one]
  | succ i ih => rw [powModLoop, powMod_turn rfl, ih]

theorem powMod_eq (base e m : Nat) : powMod base e m = base ^ e % m := by
  have hhigh : (base % m) ^ (e / 2 ^ bitlen e) = 1 := by
    rw [Nat.div_eq_of_lt (lt_two_pow_bitlen e), Nat.pow_zero]
  rw [powMod, ← hhigh, powModLoop_eq, ← Nat.pow_mod]

theorem modpowValue_of_pos (base e : Nat) {m : Nat} (h : 0 < m) : modpowValue base e m = .ok (base ^ e % m) := by
  rw [modpowValue, if_neg (by omega), powMod_eq]

@[simp] theorem modpowValue_zero (base e : Nat) : modpowValue base e 0 = .error .invalidArgument := rfl

theorem exec_modpow {s : State} {f : Flight} (hf : s.flight = some f) (d a b c : Reg) :
    exec (.modpow d a b c) s =
      .next (complete ((modpowValue f.snap.x[a] f.snap.x[b] f.snap.x[c]).map (Commit.reg d)) s) := by
  rw [exec, execModpow]
  exact run_of_flight hf

/-- Settles O37: MODPOW's row reserves E and Z, and its loop computes the power's residue by induction on the exponent
bits still to come. -/
theorem modpowIsThePowerResidue : Obligations.ModpowIsThePowerResidue := by
  refine ⟨fun w d a b c => ?_, fun s p k d a b c hf => ⟨fun hm => ?_, fun hm => ?_⟩⟩
  · rw [decode_eq_ok_iff rfl]
    simp [Instr.mnemonic, opcode, rowCommand, reservedClear, reservedFields, and_assoc]
  · rw [exec_modpow hf, modpowValue_of_pos _ _ hm, complete_map_reg_ok]
    rfl
  · rw [exec_modpow hf, hm, modpowValue_zero, complete_map_reg_error]

/-! ## MODINV (R165, R9) -/

/-- The loop of R165 ends at the gcd, whatever the coefficients. -/
theorem egcdLoop_fst {n r0 r1 : Nat} (t0 t1 : Int) (hn : r1 ≤ n) : (egcdLoop n r0 r1 t0 t1).1 = Nat.gcd r0 r1 := by
  induction n generalizing r0 r1 t0 t1 with
  | zero => rw [egcdLoop, Nat.le_zero.1 hn, Nat.gcd_zero_right]
  | succ n ih =>
    rw [egcdLoop]
    split
    · rename_i hr
      rw [hr, Nat.gcd_zero_right]
    · have hlt : r0 % r1 < r1 := Nat.mod_lt _ (by omega)
      rw [← Nat.mod_eq_sub_div_mul, ih _ _ (by omega), Nat.gcd_comm r1, ← Nat.gcd_rec, Nat.gcd_comm]

/-- The invariant of the loop of R165, r ≡ a·t (mod m) for both pairs, holds of its result. -/
theorem egcdLoop_modEq {a m : Int} (n : Nat) {r0 r1 : Nat} {t0 t1 : Int} (h0 : a * t0 ≡ r0 [ZMOD m])
    (h1 : a * t1 ≡ r1 [ZMOD m]) : a * (egcdLoop n r0 r1 t0 t1).2 ≡ (egcdLoop n r0 r1 t0 t1).1 [ZMOD m] := by
  induction n generalizing r0 r1 t0 t1 with
  | zero => exact h0
  | succ n ih =>
    rw [egcdLoop]
    split
    · exact h0
    · refine ih h1 ?_
      have hle : r0 / r1 * r1 ≤ r0 := Nat.div_mul_le_self r0 r1
      have hcoeff : a * (t0 - (r0 / r1 : Nat) * t1) = a * t0 - (r0 / r1 : Nat) * (a * t1) := by ring
      rw [hcoeff, Nat.cast_sub hle, Nat.cast_mul]
      exact h0.sub (h1.mul_left _)

theorem egcd_fst (a m : Nat) : (egcd a m).1 = Nat.gcd a m := by
  rw [egcd, egcdLoop_fst _ _ le_rfl, Nat.gcd_comm, ← Nat.gcd_rec, Nat.gcd_comm]

/-- The coefficient extended Euclid ends with (R165). -/
theorem mul_egcd_snd_modEq (a m : Nat) : (a : Int) * (egcd a m).2 ≡ Nat.gcd a m [ZMOD m] := by
  have h0 : (a : Int) * 0 ≡ m [ZMOD m] := by simp [Int.ModEq]
  have h1 : (a : Int) * 1 ≡ (a % m : Nat) [ZMOD m] := by simp [Int.ModEq]
  rw [← egcd_fst, egcd]
  exact egcdLoop_modEq _ h0 h1

/-- inv(a, m) is an inverse (R9); m = 1 makes it 0. -/
theorem mul_inv_modEq_one {a m : Nat} (hm : 0 < m) (hcop : Nat.gcd a m = 1) : a * inv a m ≡ 1 [MOD m] := by
  have hinv : (inv a m : Int) = (egcd a m).2 % m := Int.toNat_of_nonneg (Int.emod_nonneg _ (by omega))
  rw [← Int.natCast_modEq_iff, Nat.cast_mul, hinv]
  calc (a : Int) * ((egcd a m).2 % m)
    _ ≡ a * (egcd a m).2 [ZMOD m] := (Int.mod_modEq _ _).mul_left _
    _ ≡ Nat.gcd a m [ZMOD m] := mul_egcd_snd_modEq a m
    _ = (1 : Nat) := by rw [hcop]

/-- inv(a, m) is the only inverse below m (R9). -/
theorem eq_inv_of_mul_modEq_one {a m z : Nat} (hcop : Nat.gcd a m = 1) (hz : z < m) (h : a * z ≡ 1 [MOD m]) :
    z = inv a m := by
  have hm : 0 < m := by omega
  have hmul : a * z ≡ a * inv a m [MOD m] := h.trans (mul_inv_modEq_one hm hcop).symm
  exact (hmul.cancel_left_of_coprime (Nat.gcd_comm m a ▸ hcop)).eq_of_lt_of_lt hz (inv_lt a hm)

@[simp] theorem modinvValue_zero (a : Nat) : modinvValue a 0 = .error .invalidArgument := rfl

theorem modinvValue_of_coprime {a m : Nat} (hm : 0 < m) (hcop : Nat.gcd a m = 1) :
    modinvValue a m = .ok (inv a m) := by
  rw [modinvValue, if_neg (by omega), egcd_fst, if_neg (not_not.2 hcop)]

theorem modinvValue_of_not_coprime {a m : Nat} (hm : 0 < m) (hcop : Nat.gcd a m ≠ 1) :
    modinvValue a m = .error .noInverseExists := by
  rw [modinvValue, if_neg (by omega), egcd_fst, if_pos hcop]

theorem exec_modinv {s : State} {f : Flight} (hf : s.flight = some f) (d a c : Reg) :
    exec (.modinv d a c) s = .next (complete ((modinvValue f.snap.x[a] f.snap.x[c]).map (Commit.reg d)) s) := by
  rw [exec, execModinv]
  exact run_of_flight hf

/-- Settles O38: MODINV's row reserves B, E and Z; the value it writes is `inv`, by the loop's invariant the one
inverse below the modulus. -/
theorem modinvIsTheUniqueInverse : Obligations.ModinvIsTheUniqueInverse := by
  refine ⟨fun w d a c => ?_, fun s p k d a c hf => ⟨fun hm hcop => ?_, fun hm => ?_, fun hm hcop => ?_⟩⟩
  · rw [decode_eq_ok_iff rfl]
    simp [Instr.mnemonic, opcode, rowCommand, reservedClear, reservedFields, and_assoc]
  · refine ⟨inv p.x[a] p.x[c], inv_lt _ hm, mul_inv_modEq_one hm hcop,
      fun z hz h => eq_inv_of_mul_modEq_one hcop hz h, ?_⟩
    rw [exec_modinv hf, modinvValue_of_coprime hm hcop, complete_map_reg_ok]
    rfl
  · rw [exec_modinv hf, hm, modinvValue_zero, complete_map_reg_error]
  · rw [exec_modinv hf, modinvValue_of_not_coprime hm hcop, complete_map_reg_error]

/-! ## FITW (R168, R169) -/

theorem fitwValue_of_fits {v w : Nat} (h : v < 2 ^ (8 * w)) : fitwValue v w = .ok v :=
  if_neg (Nat.not_le.2 h)

theorem fitwValue_of_overflow {v w : Nat} (h : 2 ^ (8 * w) ≤ v) : fitwValue v w = .error .overflow :=
  if_pos h

theorem exec_fitw {s : State} {f : Flight} (hf : s.flight = some f) (d a : Reg) (width : Imm) :
    exec (.fitw d a width) s = .next (complete ((fitwValue f.snap.x[a] width.toNat).map (Commit.reg d)) s) := by
  rw [exec, execFitw]
  exact run_of_flight hf

/-- Settles O39: FITW's row reserves nothing; what it copies is below FWB's range, where the round trip is O57's. -/
theorem fitwCopiesWhatFits : Obligations.FitwCopiesWhatFits := by
  refine ⟨fun w d a width => ?_, fun s p k d a width hf => ⟨fun hv => ⟨?_, ?_⟩, fun hv => ?_⟩⟩
  · rw [decode_eq_ok_iff rfl, ← immField_eq_iff]
    simp [Instr.mnemonic, opcode, rowCommand, reservedClear, reservedFields]
  · rw [exec_fitw hf, fitwValue_of_fits hv, complete_map_reg_ok]
    rfl
  · obtain ⟨hencode, -, -, hdecode⟩ := fixedWidthRoundTrip.1 p.x[a] width.toNat hv
    exact ⟨_, hencode, hdecode⟩
  · rw [exec_fitw hf, fitwValue_of_overflow hv, complete_map_reg_error]

end Sys2Proof.Machine

/-! The primality family (42_primality): IsProbablePrime's steps in the words of R202, what it answers on given
witnesses and on any draws for a prime, and MRTEST. -/

namespace Sys2Proof.Machine

open Sys2Proof

/-! ## The range check and the fast path (R202 step 1) -/

theorem hasSmallFactor_of_mem {n : Nat} (h : n ∈ smallPrimes) : hasSmallFactor n :=
  ⟨n, h, dvd_rfl⟩

theorem any_smallPrimes_iff (n : Nat) : smallPrimes.any (fun p => n % p == 0) = true ↔ hasSmallFactor n := by
  simp only [List.any_eq_true, beq_iff_eq, hasSmallFactor, Nat.dvd_iff_mod_eq_zero]

theorem fastPath_of_mem {n : Nat} (h : n ∈ smallPrimes) : fastPath n = some true := by
  have hn : ∀ p ∈ smallPrimes, ¬ p < 2 := by decide
  rw [fastPath, if_neg (hn n h), if_pos h]

theorem fastPath_of_composite {n : Nat} (h : n < 2 ∨ (hasSmallFactor n ∧ n ∉ smallPrimes)) :
    fastPath n = some false := by
  rw [fastPath]
  by_cases hn : n < 2
  · rw [if_pos hn]
  · obtain ⟨hfactor, hmem⟩ := h.resolve_left hn
    rw [if_neg hn, if_neg hmem, if_pos ((any_smallPrimes_iff n).2 hfactor)]

theorem fastPath_of_no_smallFactor {n : Nat} (hn : 2 ≤ n) (h : ¬ hasSmallFactor n) : fastPath n = none := by
  rw [fastPath, if_neg (Nat.not_lt.2 hn), if_neg (mt hasSmallFactor_of_mem h),
    if_neg (mt (any_smallPrimes_iff n).1 h)]

theorem odd_of_no_smallFactor {n : Nat} (h : ¬ hasSmallFactor n) : n % 2 = 1 := by
  have htwo : ¬ 2 ∣ n := fun hdvd => h ⟨2, by decide, hdvd⟩
  omega

/-- A prime with a small factor is that factor. -/
theorem mem_smallPrimes_of_prime {n : Nat} (hp : n.Prime) (h : hasSmallFactor n) : n ∈ smallPrimes := by
  obtain ⟨q, hq, hdvd⟩ := h
  have hone : ∀ p ∈ smallPrimes, p ≠ 1 := by decide
  exact (hp.eq_one_or_self_of_dvd q hdvd).resolve_left (hone q hq) ▸ hq

/-! ## The odd part of n − 1 (R202 step 2) -/

theorem oddPartLoop_eq {k d s : Nat} (c : Nat) (hd : d % 2 = 1) (hk : s ≤ k) :
    oddPartLoop k (d * 2 ^ s) c = (d, c + s) := by
  induction s generalizing k c with
  | zero =>
    cases k with
    | zero => simp [oddPartLoop]
    | succ k => simp [oddPartLoop, hd]
  | succ s ih =>
    obtain ⟨j, rfl⟩ : ∃ j, k = j + 1 := ⟨k - 1, by omega⟩
    have hdouble : d * 2 ^ (s + 1) = 2 * (d * 2 ^ s) := by ring
    rw [oddPartLoop, hdouble, if_pos (Nat.mul_mod_right 2 _), Nat.mul_div_cancel_left _ (by decide),
      ih (c + 1) (by omega), Nat.add_assoc, Nat.add_comm 1]

/-- The loop finds any decomposition there is, so there is one only. -/
theorem oddPart_eq {n d s : Nat} (hn : n - 1 = d * 2 ^ s) (hd : d % 2 = 1) : oddPart n = (d, s) := by
  have hbits : 2 ^ s < 2 ^ bitlen (n - 1) :=
    calc 2 ^ s ≤ d * 2 ^ s := Nat.le_mul_of_pos_left _ (by omega)
      _ = n - 1 := hn.symm
      _ < 2 ^ bitlen (n - 1) := lt_two_pow_bitlen _
  have hs : s < bitlen (d * 2 ^ s) := hn ▸ (Nat.pow_lt_pow_iff_right (by decide)).1 hbits
  rw [oddPart, hn, oddPartLoop_eq 0 hd hs.le, Nat.zero_add]

theorem exists_oddPart {n : Nat} (hn : 2 ≤ n) : ∃ d s, n - 1 = d * 2 ^ s ∧ d % 2 = 1 := by
  obtain ⟨s, d, hodd, heq⟩ := Nat.exists_eq_two_pow_mul_odd (n := n - 1) (by omega)
  exact ⟨d, s, by rw [heq, Nat.mul_comm], Nat.odd_iff.1 hodd⟩

/-! ## One round (R202 step 3, R205) -/

/-- Squaring k times from a power of a runs through its next k doublings. -/
theorem squaresReach_iff (n a k e : Nat) :
    squaresReach n k (a ^ e % n) = true ↔ ∃ j, j < k ∧ a ^ (e * 2 ^ (j + 1)) % n = n - 1 := by
  induction k generalizing e with
  | zero => simp [squaresReach]
  | succ k ih =>
    have hsquare : a ^ e % n * (a ^ e % n) % n = a ^ (e * 2) % n := by
      rw [← Nat.mul_mod, ← Nat.pow_add, Nat.mul_two]
    have hdouble : ∀ j, e * 2 * 2 ^ (j + 1) = e * 2 ^ (j + 1 + 1) := fun j => by ring
    rw [squaresReach, Nat.exists_lt_succ_left, hsquare, Nat.zero_add, Nat.pow_one, Bool.if_true_left, Bool.or_eq_true,
      decide_eq_true_iff, ih]
    simp only [hdouble]

/-- A round with the decomposition of an odd n: there is at least one factor 2, so the test of a^d itself is the
doubling j = 0. -/
theorem passesRound_iff {n d s : Nat} (a : Nat) (hn : n - 1 = d * 2 ^ (s + 1)) (hd : d % 2 = 1) :
    passesRound n a = true ↔ a ^ d % n = 1 ∨ ∃ j, j < s + 1 ∧ a ^ (d * 2 ^ j) % n = n - 1 := by
  simp only [passesRound, oddPart_eq hn hd, powMod_eq]
  rw [Nat.exists_lt_succ_left, ← or_assoc, Nat.pow_zero, Nat.mul_one, Bool.if_true_left, Bool.or_eq_true,
    decide_eq_true_iff, Nat.add_sub_cancel, squaresReach_iff]

theorem passesRound_iff_strongPass {n : Nat} (a : Nat) (hn : 2 ≤ n) (hodd : n % 2 = 1) :
    passesRound n a = true ↔ strongPass n a := by
  have hpos : ∀ {d s}, n - 1 = d * 2 ^ s → d % 2 = 1 → ∃ k, s = k + 1 := by
    rintro d (_ | k) hdec hd
    · rw [Nat.pow_zero] at hdec
      omega
    · exact ⟨k, rfl⟩
  constructor
  · intro h
    obtain ⟨d, s, hdec, hd⟩ := exists_oddPart hn
    obtain ⟨k, rfl⟩ := hpos hdec hd
    exact ⟨d, k + 1, hdec, hd, (passesRound_iff a hdec hd).1 h⟩
  · rintro ⟨d, s, hdec, hd, h⟩
    obtain ⟨k, rfl⟩ := hpos hdec hd
    exact (passesRound_iff a hdec hd).2 h

/-! ## The rounds on given witnesses (R202, R203) -/

theorem witnessRange_iff (n a : Nat) : witnessRange n a = true ↔ 2 ≤ a ∧ a ≤ n - 2 :=
  decide_eq_true_iff

theorem mrRounds_cons_of_pass {n a : Nat} (left : Nat) (ds : List Nat) (ha : witnessRange n a = true)
    (hpass : passesRound n a = true) : mrRounds n (left + 1) (a :: ds) = mrRounds n left ds := by
  rw [mrRounds, draw_cons_of_inRange ds ha]
  exact if_pos hpass

theorem mrRounds_cons_of_fail {n a : Nat} (left : Nat) (ds : List Nat) (ha : witnessRange n a = true)
    (hfail : ¬ passesRound n a = true) : mrRounds n (left + 1) (a :: ds) = .answer false ds := by
  rw [mrRounds, draw_cons_of_inRange ds ha]
  exact if_neg hfail

theorem mrRounds_append_of_pass {n : Nat} {ws : List Nat} (left : Nat) (ds : List Nat)
    (h : ∀ a ∈ ws, witnessRange n a = true ∧ passesRound n a = true) :
    mrRounds n (left + ws.length) (ws ++ ds) = mrRounds n left ds := by
  induction ws with
  | nil => rfl
  | cons a ws ih =>
    obtain ⟨⟨ha, hpass⟩, hws⟩ := List.forall_mem_cons.1 h
    exact (mrRounds_cons_of_pass _ _ ha hpass).trans (ih hws)

theorem isProbablePrime_of_fastPath {n : Nat} {b : Bool} (rounds : Nat) (ds : List Nat)
    (h : fastPath n = some b) : isProbablePrime n rounds ds = .answer b ds := by
  rw [isProbablePrime, h]

theorem isProbablePrime_of_rounds {n : Nat} (rounds : Nat) (ds : List Nat) (h : fastPath n = none) :
    isProbablePrime n rounds ds = mrRounds n rounds ds := by
  rw [isProbablePrime, h]

/-- Witnesses that pass by R202 are drawn and pass in the model. -/
theorem witnesses_pass {n : Nat} {ws : List Nat} (hn : 2 ≤ n) (hodd : n % 2 = 1)
    (h : ∀ a ∈ ws, 2 ≤ a ∧ a ≤ n - 2 ∧ strongPass n a) :
    ∀ a ∈ ws, witnessRange n a = true ∧ passesRound n a = true := by
  intro a ha
  obtain ⟨hlow, hhigh, hpass⟩ := h a ha
  exact ⟨(witnessRange_iff n a).2 ⟨hlow, hhigh⟩, (passesRound_iff_strongPass a hn hodd).2 hpass⟩

theorem isProbablePrime_of_acceptsWith {n rounds : Nat} {ws : List Nat} (rest : List Nat)
    (h : acceptsWith n rounds ws) : isProbablePrime n rounds (ws ++ rest) = .answer true rest := by
  obtain ⟨hmem, rfl⟩ | ⟨hn, hfactor, rfl, hws⟩ := h
  · exact isProbablePrime_of_fastPath rounds rest (fastPath_of_mem hmem)
  · have hpass := mrRounds_append_of_pass 0 rest (witnesses_pass hn (odd_of_no_smallFactor hfactor) hws)
    rw [isProbablePrime_of_rounds _ _ (fastPath_of_no_smallFactor hn hfactor), ← Nat.zero_add ws.length, hpass,
      mrRounds]

theorem isProbablePrime_of_rejectsWith {n rounds : Nat} {ws : List Nat} (rest : List Nat)
    (h : rejectsWith n rounds ws) : isProbablePrime n rounds (ws ++ rest) = .answer false rest := by
  obtain ⟨hcomposite, rfl⟩ | ⟨hn, hfactor, pre, a, rfl, hlen, hpre, hlow, hhigh, hfail⟩ := h
  · exact isProbablePrime_of_fastPath rounds rest (fastPath_of_composite hcomposite)
  · have hodd := odd_of_no_smallFactor hfactor
    obtain ⟨left, rfl⟩ : ∃ left, rounds = left + 1 + pre.length := ⟨rounds - pre.length - 1, by omega⟩
    rw [isProbablePrime_of_rounds _ _ (fastPath_of_no_smallFactor hn hfactor), List.append_assoc,
      mrRounds_append_of_pass (left + 1) _ (witnesses_pass hn hodd hpre)]
    exact mrRounds_cons_of_fail left rest ((witnessRange_iff n a).2 ⟨hlow, hhigh⟩)
      (mt (passesRound_iff_strongPass a hn hodd).1 hfail)

/-! ## A prime is never rejected (R204) -/

/-- The square roots of 1 in a domain are ±1, so repeated squaring reaches 1 from 1 or through −1. -/
theorem eq_one_or_pow_eq_neg_one {R : Type*} [CommRing R] [NoZeroDivisors R] {y : R} {s : Nat}
    (h : y ^ 2 ^ s = 1) : y = 1 ∨ ∃ j, j < s ∧ y ^ 2 ^ j = -1 := by
  induction s with
  | zero => exact .inl (by simpa using h)
  | succ s ih =>
    rw [Nat.pow_succ, pow_mul, sq_eq_one_iff] at h
    obtain h | h := h
    · exact (ih h).imp_right fun ⟨j, hj, hneg⟩ => ⟨j, by omega, hneg⟩
    · exact .inr ⟨s, by omega, h⟩

/-- Fermat's little theorem, then the square roots of 1 modulo the prime. -/
theorem strongPass_of_prime {n a : Nat} (hp : n.Prime) (ha : ¬ n ∣ a) : strongPass n a := by
  have := Fact.mk hp
  have htwo := hp.two_le
  obtain ⟨d, s, hdec, hd⟩ := exists_oddPart htwo
  have hfermat : ((a : ZMod n) ^ d) ^ 2 ^ s = 1 := by
    rw [← pow_mul, ← hdec]
    exact ZMod.pow_card_sub_one_eq_one (mt (ZMod.natCast_eq_zero_iff a n).1 ha)
  have hone : (a : ZMod n) ^ d = 1 → a ^ d % n = 1 := fun h => by
    rw [← Nat.mod_eq_of_lt htwo]
    exact (ZMod.natCast_eq_natCast_iff' _ _ n).1 (by simpa using h)
  have hneg : ∀ j, ((a : ZMod n) ^ d) ^ 2 ^ j = -1 → a ^ (d * 2 ^ j) % n = n - 1 := fun j h => by
    rw [← Nat.mod_eq_of_lt (show n - 1 < n by omega)]
    exact (ZMod.natCast_eq_natCast_iff' _ _ n).1 (by simpa [pow_mul, Nat.cast_sub hp.one_le] using h)
  exact ⟨d, s, hdec, hd, (eq_one_or_pow_eq_neg_one hfermat).imp hone fun ⟨j, hj, h⟩ => ⟨j, hj, hneg j h⟩⟩

theorem mrRounds_answer_true {n left : Nat} {ds : List Nat} {b : Bool} {rest : List Nat}
    (hpass : ∀ a, witnessRange n a = true → passesRound n a = true) (h : mrRounds n left ds = .answer b rest) :
    b = true := by
  induction left generalizing ds with
  | zero =>
    cases h
    rfl
  | succ left ih =>
    rw [mrRounds] at h
    split at h
    · cases h
    · rename_i a ds' hdraw
      rw [if_pos (hpass a (draw_some hdraw).1)] at h
      exact ih h

theorem isProbablePrime_answer_true_of_prime {n rounds : Nat} {ds : List Nat} {b : Bool} {rest : List Nat}
    (hp : n.Prime) (h : isProbablePrime n rounds ds = .answer b rest) : b = true := by
  by_cases hfactor : hasSmallFactor n
  · rw [isProbablePrime_of_fastPath _ _ (fastPath_of_mem (mem_smallPrimes_of_prime hp hfactor))] at h
    cases h
    rfl
  · rw [isProbablePrime_of_rounds _ _ (fastPath_of_no_smallFactor hp.two_le hfactor)] at h
    refine mrRounds_answer_true (fun a ha => ?_) h
    obtain ⟨hlow, hhigh⟩ := (witnessRange_iff n a).1 ha
    exact (passesRound_iff_strongPass a hp.two_le (odd_of_no_smallFactor hfactor)).2
      (strongPass_of_prime hp (Nat.not_dvd_of_pos_of_lt (by omega) (by omega)))

/-! ## MRTEST (R200, R201) -/

/-- MRTEST just accepted completes with IsProbablePrime's answer in RES (R201). -/
theorem exec_mrtest_of_answer {s : State} {p : Snapshot} {a : Reg} {b : Bool} {rest : List Nat}
    (hs : s.accepted p) (h : isProbablePrime p.x[a] p.rounds.toNat s.rng = .answer b rest) :
    exec (.mrtest a) s =
      .next { s with res := BitVec.ofNat 32 (bit b), rng := rest, flight := none, done := true } := by
  have hbody : mrtestBody a ⟨p, .start⟩ s.rng = .ended (.ok { res := some (BitVec.ofNat 32 (bit b)) }) rest :=
    congrArg mrtestProgress h
  rw [exec, execMrtest]
  exact runDrawing_of_ended (body := fun _ f ds => mrtestBody a f ds) hs hbody

/-- MRTEST just accepted waits where IsProbablePrime does, with the rounds still to run (R52). -/
theorem exec_mrtest_of_needs {s : State} {p : Snapshot} {a : Reg} {left : Nat}
    (hs : s.accepted p) (h : isProbablePrime p.x[a] p.rounds.toNat s.rng = .needs left) :
    exec (.mrtest a) s = .next { s with rng := [], flight := some ⟨p, .rounds left⟩ } := by
  have hbody : mrtestBody a ⟨p, .start⟩ s.rng = .waiting (.rounds left) := congrArg mrtestProgress h
  rw [exec, execMrtest]
  exact runDrawing_of_waiting (body := fun _ f ds => mrtestBody a f ds) hs hbody

/-- Settles O40: MRTEST's row reserves D, B, C, E and Z; on the given witnesses IsProbablePrime has its answer and the
rest is unconsumed. -/
theorem mrtestAnswersWithRes : Obligations.MrtestAnswersWithRes := by
  refine ⟨fun w a => ?_, fun s p a ws rest hs hrng => ⟨fun h => ?_, fun h => ?_⟩⟩
  · rw [decode_eq_ok_iff rfl]
    simp [Instr.mnemonic, opcode, rowCommand, reservedClear, reservedFields]
  · exact exec_mrtest_of_answer hs (hrng ▸ isProbablePrime_of_acceptsWith rest h)
  · exact exec_mrtest_of_answer hs (hrng ▸ isProbablePrime_of_rejectsWith rest h)

/-- Settles O41: of IsProbablePrime's two verdicts a wait leaves BUSY = 1, and for a prime the answer is true. -/
theorem mrtestNeverRejectsAPrime : Obligations.MrtestNeverRejectsAPrime := by
  intro s t p a hs hp h hidle
  cases hv : isProbablePrime p.x[a] p.rounds.toNat s.rng with
  | answer b rest =>
    obtain rfl := isProbablePrime_answer_true_of_prime hp hv
    rw [exec_mrtest_of_answer hs hv] at h
    cases h
    rfl
  | needs left =>
    rw [exec_mrtest_of_needs hs hv] at h
    cases h
    cases hidle

end Sys2Proof.Machine

/-! The prime-generator family (43_prime_generator): a candidate's form, the search of R230 on given draws and on
any that suffice, and PRIMEGEN. -/

namespace Sys2Proof.Machine

open Sys2Proof

/-! ## Candidates (R231) -/

theorem candidateRange_iff (bits r : Nat) : candidateRange bits r = true ↔ r < 2 ^ bits :=
  decide_eq_true_iff

theorem two_pow_le_candidate (bits r : Nat) : 2 ^ (bits - 1) ≤ candidate bits r :=
  Nat.right_le_or.trans Nat.left_le_or

theorem candidate_mod_four (bits r : Nat) : candidate bits r % 4 = 3 := by
  have hlow : ∀ y < 4, y ||| 3 = 3 := by decide
  have hor := Nat.or_mod_two_pow (a := r ||| 2 ^ (bits - 1)) (b := 3) (n := 2)
  exact hor.trans (hlow _ (Nat.mod_lt _ (by decide)))

theorem bitlen_candidate {bits r : Nat} (hbits : 2 ≤ bits) (hr : r < 2 ^ bits) :
    bitlen (candidate bits r) = bits := by
  have hne : candidate bits r ≠ 0 := fun h => by
    have := candidate_mod_four bits r
    omega
  have hlog : Nat.log2 (candidate bits r) = bits - 1 := by
    rw [Nat.log2_eq_iff hne, Nat.sub_add_cancel (by omega)]
    exact ⟨two_pow_le_candidate bits r, candidate_lt hbits hr⟩
  rw [bitlen, if_neg hne, hlog]
  omega

/-- With two bits the only candidate is 3 (R230). -/
theorem candidate_two {r : Nat} (hr : r < 2 ^ 2) : candidate 2 r = 3 := by
  have hlt := candidate_lt (le_refl 2) hr
  have hmod := candidate_mod_four 2 r
  omega

/-! ## Tests that do not wait (R203, R235) -/

/-- Each round takes the next witness where all are in range, so `left` of them are enough. -/
theorem mrRounds_answers {n left : Nat} {ds : List Nat} (hrange : ∀ a ∈ ds, witnessRange n a = true)
    (hlen : left ≤ ds.length) : ∃ b rest, mrRounds n left ds = .answer b rest ∧ ds.length ≤ rest.length + left := by
  induction left generalizing ds with
  | zero => exact ⟨true, ds, rfl, le_rfl⟩
  | succ left ih =>
    cases ds with
    | nil => exact absurd hlen (Nat.not_succ_le_zero left)
    | cons a ds =>
      rw [List.length_cons] at hlen ⊢
      obtain ⟨ha, hds⟩ := List.forall_mem_cons.1 hrange
      by_cases hpass : passesRound n a = true
      · obtain ⟨b, rest, hanswer, hrest⟩ := ih hds (by omega)
        exact ⟨b, rest, (mrRounds_cons_of_pass left ds ha hpass).trans hanswer, by omega⟩
      · exact ⟨false, ds, mrRounds_cons_of_fail left ds ha hpass, by omega⟩

/-- Only past the fast path does the test need witnesses. -/
theorem isProbablePrime_answers {n rounds : Nat} {ds : List Nat}
    (h : fastPath n = none → (∀ a ∈ ds, witnessRange n a = true) ∧ rounds ≤ ds.length) :
    ∃ b rest, isProbablePrime n rounds ds = .answer b rest ∧ ds.length ≤ rest.length + rounds := by
  cases hfast : fastPath n with
  | some b => exact ⟨b, ds, isProbablePrime_of_fastPath rounds ds hfast, by omega⟩
  | none =>
    obtain ⟨hrange, hlen⟩ := h hfast
    rw [isProbablePrime_of_rounds rounds ds hfast]
    exact mrRounds_answers hrange hlen

/-! ## The search, turn by turn (R230) -/

section Search

variable {bits rounds limit count r : Nat} {ds rest : List Nat}

theorem search_at_cap (d : Reg) (bits rounds : Nat) (ds : List Nat) (h : limit ≠ 0) :
    search d bits rounds limit limit ds = .ended (.error .generationTimeout) ds := by
  rw [search_eq, if_pos ⟨h, rfl⟩]

/-- Below the cap the next candidate is tested: it is the result, or it is passed over. -/
theorem search_cons (d : Reg) (hcap : limit ≠ 0 → count < limit) (hr : r < 2 ^ bits) (b : Bool)
    (h : isProbablePrime (candidate bits r) rounds ds = .answer b rest) :
    search d bits rounds limit count (r :: ds) =
      if b then .ended (.ok (foundPrime d (candidate bits r) (count + 1))) rest
      else search d bits rounds limit (count + 1) rest := by
  have hbelow : ¬ (limit ≠ 0 ∧ count = limit) := fun ⟨hlimit, heq⟩ => (hcap hlimit).ne heq
  rw [search_eq, if_neg hbelow, draw_cons_of_inRange ds ((candidateRange_iff bits r).2 hr)]
  dsimp only
  rw [h]
  cases b <;> rfl

/-- Rejected candidates are passed over one by one (R232). -/
theorem search_candidateDraws (d : Reg) {blocks : List (Nat × List Nat)} (rest : List Nat)
    (hblocks : ∀ b ∈ blocks, b.1 < 2 ^ bits ∧ rejectsWith (candidate bits b.1) rounds b.2)
    (hcap : limit ≠ 0 → count + blocks.length ≤ limit) :
    search d bits rounds limit count (candidateDraws blocks ++ rest) =
      search d bits rounds limit (count + blocks.length) rest := by
  induction blocks generalizing count with
  | nil => rfl
  | cons b blocks ih =>
    obtain ⟨⟨hr, hreject⟩, htail⟩ := List.forall_mem_cons.1 hblocks
    rw [List.length_cons] at hcap ⊢
    have htest := isProbablePrime_of_rejectsWith (candidateDraws blocks ++ rest) hreject
    have hdraws : candidateDraws (b :: blocks) ++ rest = b.1 :: (b.2 ++ (candidateDraws blocks ++ rest)) := by
      simp [candidateDraws]
    rw [hdraws, search_cons d (fun h => by have := hcap h; omega) hr false htest, if_neg Bool.false_ne_true,
      ih htail (fun h => by have := hcap h; omega), Nat.add_assoc, Nat.add_comm 1]

/-- The search finds only a candidate that its test accepts, on the last of the draws consumed (R234). -/
theorem search_found {d : Reg} {c : Commit}
    (h : search d bits rounds limit count ds = .ended (.ok c) rest) :
    ∃ r k pre ws, r < 2 ^ bits ∧ c = foundPrime d (candidate bits r) k ∧ ds = pre ++ ws ++ rest ∧
      isProbablePrime (candidate bits r) rounds (ws ++ rest) = .answer true rest := by
  induction hn : ds.length using Nat.strong_induction_on generalizing count ds with
  | _ n ih =>
    subst hn
    rw [search_eq] at h
    by_cases hcap : limit ≠ 0 ∧ count = limit
    · rw [if_pos hcap] at h
      cases h
    · rw [if_neg hcap] at h
      rcases hdraw : draw (candidateRange bits) ds with - | ⟨r, ds'⟩
      · rw [hdraw] at h
        cases h
      · obtain ⟨hrange, skipped, hds, -⟩ := draw_some hdraw
        rw [hdraw] at h
        dsimp only at h
        rcases htest : isProbablePrime (candidate bits r) rounds ds' with ⟨_ | _, rest'⟩ | left
        · obtain ⟨used, hused⟩ := isProbablePrime_suffix htest
          rw [htest] at h
          obtain ⟨r', k, pre, ws, hr', hc, hrest, htest'⟩ := ih _ (rest_lt_of_candidate hdraw htest) h rfl
          exact ⟨r', k, skipped ++ r :: (used ++ pre), ws, hr', hc, by simp [hds, hused, hrest], htest'⟩
        · obtain ⟨used, hused⟩ := isProbablePrime_suffix htest
          rw [htest] at h
          cases h
          exact ⟨r, count + 1, skipped ++ [r], used, (candidateRange_iff bits r).1 hrange, rfl,
            by simp [hds, hused], hused ▸ htest⟩
        · rw [htest] at h
          cases h

/-! ## A capped search ends (R233, R235) -/

/-- A value in range of DrawCandidate and of DrawWitness for every candidate; with fewer than three bits no
candidate needs a witness. -/
def fitsEveryDraw (bits v : Nat) : Prop :=
  v < 2 ^ (bits - 1) ∧ (3 ≤ bits → 2 ≤ v ∧ v + 2 ≤ 2 ^ (bits - 1))

theorem fitsEveryDraw.candidate_range {v : Nat} (h : fitsEveryDraw bits v) : v < 2 ^ bits :=
  h.1.trans_le (Nat.pow_le_pow_right (by decide) (Nat.sub_le bits 1))

theorem fitsEveryDraw.witness_range {v : Nat} (h : fitsEveryDraw bits v) (hbits : 2 ≤ bits) (hr : r < 2 ^ bits)
    (hfast : fastPath (candidate bits r) = none) : witnessRange (candidate bits r) v = true := by
  obtain rfl | hthree := hbits.eq_or_lt
  · rw [candidate_two hr, fastPath_of_mem (by decide)] at hfast
    cases hfast
  · obtain ⟨hlow, hhigh⟩ := h.2 hthree
    have := two_pow_le_candidate bits r
    exact (witnessRange_iff _ v).2 ⟨hlow, by omega⟩

/-- Each of the `left` candidates below the cap takes one draw and at most `rounds` witnesses. -/
theorem search_ends (d : Reg) {left : Nat} (hbits : 2 ≤ bits) (hlimit : limit ≠ 0) (hcount : count + left = limit)
    (hds : ∀ v ∈ ds, fitsEveryDraw bits v) (hlen : left * (rounds + 1) ≤ ds.length) :
    ∃ res rest, search d bits rounds limit count ds = .ended res rest := by
  induction left generalizing count ds with
  | zero =>
    obtain rfl : count = limit := hcount
    exact ⟨_, _, search_at_cap d bits rounds ds hlimit⟩
  | succ left ih =>
    rw [Nat.succ_mul] at hlen
    cases ds with
    | nil => exact absurd hlen (by simp)
    | cons r ds =>
      rw [List.length_cons] at hlen
      obtain ⟨hfits, htail⟩ := List.forall_mem_cons.1 hds
      have hr := hfits.candidate_range
      obtain ⟨b, rest, htest, hrest⟩ := isProbablePrime_answers (n := candidate bits r) (rounds := rounds) (ds := ds)
        fun hfast => ⟨fun v hv => (htail v hv).witness_range hbits hr hfast, by omega⟩
      rw [search_cons d (fun _ => by omega) hr b htest]
      cases b with
      | true => exact ⟨_, _, rfl⟩
      | false =>
        obtain ⟨used, rfl⟩ := isProbablePrime_suffix htest
        exact ih (by omega) (fun v hv => htail v (List.mem_append_right used hv)) (by omega)

end Search

/-! ## PRIMEGEN (R230) -/

/-- The bit-length check comes before any draw. -/
theorem exec_primegen_of_badLength {s : State} {f : Flight} {bits : Imm} (d : Reg) (hf : s.flight = some f)
    (hbits : bits.toNat < 2 ∨ s.cfg.opw < bits.toNat) :
    exec (.primegen d bits) s = .next (failedWith .invalidArgument s) := by
  have hbody : primegenBody d bits s.cfg f s.rng = .ended (.error .invalidArgument) s.rng := if_pos hbits
  rw [exec, execPrimegen]
  exact runDrawing_of_ended hf hbody

theorem primegenBody_start {c : Config} {bits : Imm} (d : Reg) (p : Snapshot) (ds : List Nat)
    (hlo : 2 ≤ bits.toNat) (hhi : bits.toNat ≤ c.opw) :
    primegenBody d bits c ⟨p, .start⟩ ds =
      search d bits.toNat p.rounds.toNat p.retryLimit.toNat 0 ds :=
  if_neg (not_or.2 ⟨Nat.not_lt.2 hlo, Nat.not_lt.2 hhi⟩)

section Accepted

variable {s : State} {p : Snapshot} {d : Reg} {bits : Imm} (hs : s.accepted p) (hlo : 2 ≤ bits.toNat)
  (hhi : bits.toNat ≤ s.cfg.opw)
include hs hlo hhi

/-- PRIMEGEN just accepted completes as its search ends. -/
theorem exec_primegen_of_ended {res : Except CmdError Commit} {rest : List Nat}
    (h : search d bits.toNat p.rounds.toNat p.retryLimit.toNat 0 s.rng = .ended res rest) :
    exec (.primegen d bits) s = .next (complete res { s with rng := rest }) := by
  rw [exec, execPrimegen]
  exact runDrawing_of_ended hs ((primegenBody_start d p s.rng hlo hhi).trans h)

/-- PRIMEGEN just accepted waits where its search does (R52). -/
theorem exec_primegen_of_waiting {w : Work}
    (h : search d bits.toNat p.rounds.toNat p.retryLimit.toNat 0 s.rng = .waiting w) :
    exec (.primegen d bits) s = .next { s with rng := [], flight := some ⟨p, w⟩ } := by
  rw [exec, execPrimegen]
  exact runDrawing_of_waiting hs ((primegenBody_start d p s.rng hlo hhi).trans h)

variable {blocks : List (Nat × List Nat)} {rest : List Nat}
  (hblocks : ∀ b ∈ blocks, b.1 < 2 ^ bits.toNat ∧ rejectsWith (candidate bits.toNat b.1) p.rounds.toNat b.2)
include hblocks

/-- RETRY_LIMIT rejected candidates end PRIMEGEN with GenerationTimeout (R233). -/
theorem exec_primegen_timeout (hlimit : p.retryLimit ≠ 0) (hlen : blocks.length = p.retryLimit.toNat)
    (hrng : s.rng = candidateDraws blocks ++ rest) :
    exec (.primegen d bits) s = .next { failedWith .generationTimeout s with rng := rest } := by
  have hne : p.retryLimit.toNat ≠ 0 := BitVec.toNat_ne_iff_ne.2 hlimit
  have hsearch : search d bits.toNat p.rounds.toNat p.retryLimit.toNat 0 s.rng =
      .ended (.error .generationTimeout) rest := by
    rw [hrng, search_candidateDraws d rest hblocks (fun _ => by omega), Nat.zero_add, hlen,
      search_at_cap d _ _ rest hne]
  exact exec_primegen_of_ended hs hlo hhi hsearch

/-- An accepted candidate below the cap is PRIMEGEN's result (R230, R232). -/
theorem exec_primegen_found {r : Nat} {ds : List Nat}
    (hcap : p.retryLimit ≠ 0 → blocks.length < p.retryLimit.toNat) (hr : r < 2 ^ bits.toNat)
    (htest : isProbablePrime (candidate bits.toNat r) p.rounds.toNat ds = .answer true rest)
    (hrng : s.rng = candidateDraws blocks ++ r :: ds) :
    exec (.primegen d bits) s =
      .next { s with x := s.x.set d (candidate bits.toNat r), flight := none, done := true,
                     retryCount := BitVec.ofNat 32 (blocks.length + 1), rng := rest } := by
  have hbelow : p.retryLimit.toNat ≠ 0 → 0 + blocks.length < p.retryLimit.toNat := fun h => by
    rw [Nat.zero_add]
    exact hcap (BitVec.toNat_ne_iff_ne.1 h)
  have hsearch : search d bits.toNat p.rounds.toNat p.retryLimit.toNat 0 s.rng =
      .ended (.ok (foundPrime d (candidate bits.toNat r) (blocks.length + 1))) rest := by
    rw [hrng, search_candidateDraws d _ hblocks (fun h => (hbelow h).le), search_cons d hbelow hr true htest,
      if_pos rfl, Nat.zero_add]
  exact exec_primegen_of_ended hs hlo hhi hsearch

end Accepted

/-- Settles O44: PRIMEGEN's row reserves A; the rejected candidates are passed over, and what follows is the cap or
an accepted candidate. -/
theorem primegenSearchesInDrawOrder : Obligations.PrimegenSearchesInDrawOrder := by
  refine ⟨fun w d bits => ?_, fun s p k d bits hf hbits => exec_primegen_of_badLength d hf hbits,
    fun s p d bits blocks rest hs hlo hhi hblocks => ⟨fun hlimit hlen hrng => ?_, fun r ws hcap hr hws hrng => ?_⟩⟩
  · rw [decode_eq_ok_iff rfl]
    simp [Instr.mnemonic, opcode, rowCommand, reservedClear, reservedFields, immField_eq_iff, and_assoc, and_comm]
  · exact exec_primegen_timeout hs hlo hhi hblocks hlimit hlen hrng
  · rw [List.append_assoc] at hrng
    exact exec_primegen_found hs hlo hhi hblocks hcap hr (isProbablePrime_of_acceptsWith rest hws) hrng

/-- Settles O45: without error the search has found a candidate, whose form and test give the four properties. -/
theorem primegenResultProperties : Obligations.PrimegenResultProperties := by
  intro s t p d bits hs hnoerr h hidle herr
  by_cases hbits : bits.toNat < 2 ∨ s.cfg.opw < bits.toNat
  · rw [exec_primegen_of_badLength d hs hbits] at h
    cases h
    cases herr
  obtain ⟨hlo, hhi⟩ : 2 ≤ bits.toNat ∧ bits.toNat ≤ s.cfg.opw := by omega
  cases hsearch : search d bits.toNat p.rounds.toNat p.retryLimit.toNat 0 s.rng with
  | waiting w =>
    rw [exec_primegen_of_waiting hs hlo hhi hsearch] at h
    cases h
    cases hidle
  | ended res rest =>
    rw [exec_primegen_of_ended hs hlo hhi hsearch] at h
    cases h
    cases res with
    | error e => cases herr
    | ok c =>
      obtain ⟨r, k, pre, ws, hr, rfl, hrng, htest⟩ := search_found hsearch
      have hx : (succeed (foundPrime d (candidate bits.toNat r) k) { s with rng := rest }).x[d] =
          candidate bits.toNat r := Vector.getElem_set_self d.isLt
      have hmod := candidate_mod_four bits.toNat r
      rw [complete_ok, hx]
      exact ⟨bitlen_candidate hlo hr, by omega, hmod, pre, ws, hrng, htest⟩

/-- Settles O46: with enough witnesses the test of the candidate answers, and for a prime it answers true. -/
theorem primegenTakesAPrimeCandidate : Obligations.PrimegenTakesAPrimeCandidate := by
  intro s p d bits blocks r ws hs hlo hhi hblocks hcap hr hprime hrng henough
  have hwitnesses : fastPath (candidate bits.toNat r) = none →
      (∀ a ∈ ws, witnessRange (candidate bits.toNat r) a = true) ∧ p.rounds.toNat ≤ ws.length := fun hfast => by
    obtain hmem | ⟨hlen, hws⟩ := henough
    · exact absurd hfast (by simp [fastPath_of_mem (show candidate bits.toNat r ∈ smallPrimes from hmem)])
    · exact ⟨fun a ha => (witnessRange_iff _ a).2 (hws a ha), hlen⟩
  obtain ⟨b, rest, htest, -⟩ := isProbablePrime_answers hwitnesses
  obtain rfl := isProbablePrime_answer_true_of_prime hprime htest
  exact ⟨_, exec_primegen_found hs hlo hhi hblocks hcap hr htest hrng, rfl, rfl,
    Vector.getElem_set_self d.isLt, rfl⟩

/-- Settles O47: an illegal bit length completes with its error, and a capped search on enough draws ends. -/
theorem cappedPrimegenCompletes : Obligations.CappedPrimegenCompletes := by
  intro s p d bits hs hlimit hrange hlen
  by_cases hbits : bits.toNat < 2 ∨ s.cfg.opw < bits.toNat
  · exact ⟨_, exec_primegen_of_badLength d hs hbits, rfl, rfl⟩
  obtain ⟨hlo, hhi⟩ : 2 ≤ bits.toNat ∧ bits.toNat ≤ s.cfg.opw := by omega
  have hne : p.retryLimit.toNat ≠ 0 := BitVec.toNat_ne_iff_ne.2 hlimit
  obtain ⟨res, rest, hsearch⟩ := search_ends d hlo hne (Nat.zero_add _) hrange hlen
  exact ⟨_, exec_primegen_of_ended hs hlo hhi hsearch, (not_busy_iff _).2 (complete_flight res _),
    complete_done res _⟩

end Sys2Proof.Machine

/-! The root-solver family (44_root_solver): the CRT basis and its reconstruction, the four roots by their residues, and
CRT and SQRT4 by their words and by their effect on a command in flight. -/

namespace Sys2Proof.Machine

open Sys2Proof

/-! ## Residues modulo two coprime numbers and negation modulo n -/

/-- A number below m·n is known by its residues modulo the coprime m and n. -/
theorem eq_of_modEq_of_lt_mul {m n a b : Nat} (hcop : Nat.gcd m n = 1) (ha : a < m * n) (hb : b < m * n)
    (hm : a ≡ b [MOD m]) (hn : a ≡ b [MOD n]) : a = b :=
  ((Nat.modEq_and_modEq_iff_modEq_mul hcop).1 ⟨hm, hn⟩).eq_of_lt_of_lt ha hb

theorem neg_mod_add_modEq_zero {n b : Nat} (hb : b ≤ n) : (n - b) % n + b ≡ 0 [MOD n] := by
  calc (n - b) % n + b
    _ ≡ n - b + b [MOD n] := (Nat.mod_modEq _ n).add_right b
    _ = n := Nat.sub_add_cancel hb
    _ ≡ 0 [MOD n] := by simp [Nat.ModEq]

/-- (n − b) mod n is the only negation of b below n. -/
theorem eq_neg_mod_of_add_modEq_zero {n a b : Nat} (ha : a < n) (hb : b < n) (h : a + b ≡ 0 [MOD n]) :
    a = (n - b) % n :=
  ((h.trans (neg_mod_add_modEq_zero hb.le).symm).add_right_cancel' b).eq_of_lt_of_lt ha
    (Nat.mod_lt _ (by omega))

/-- A number and its negation have the same square. -/
theorem sq_modEq_sq_of_add_modEq_zero {n a b : Nat} (h : a + b ≡ 0 [MOD n]) : a ^ 2 ≡ b ^ 2 [MOD n] := by
  refine Nat.ModEq.add_right_cancel' (a * b) ?_
  calc a ^ 2 + a * b
    _ = a * (a + b) := by ring
    _ ≡ a * 0 [MOD n] := h.mul_left a
    _ = b * 0 := by rw [Nat.mul_zero, Nat.mul_zero]
    _ ≡ b * (a + b) [MOD n] := (h.mul_left b).symm
    _ = b ^ 2 + a * b := by ring

/-! ## CrtBasis (R251) -/

theorem crtBasis_snd (p q : Nat) : (crtBasis p q).2 = (crtBasis q p).1 := rfl

theorem crtBasis_fst_lt {p q : Nat} (hp : 0 < p) (hq : 0 < q) : (crtBasis p q).1 < p * q := by
  calc (crtBasis p q).1
    _ < q * p := Nat.mul_lt_mul_of_pos_left (inv_lt (q % p) hp) hq
    _ = p * q := Nat.mul_comm q p

theorem crtBasis_fst_modEq_one {p q : Nat} (hp : 0 < p) (hcop : Nat.gcd p q = 1) : (crtBasis p q).1 ≡ 1 [MOD p] := by
  have hmod : Nat.gcd (q % p) p = 1 := by rw [← Nat.gcd_rec, hcop]
  calc (crtBasis p q).1
    _ ≡ q % p * inv (q % p) p [MOD p] := (Nat.mod_modEq q p).symm.mul_right _
    _ ≡ 1 [MOD p] := mul_inv_modEq_one hp hmod

theorem crtBasis_fst_modEq_zero (p q : Nat) : (crtBasis p q).1 ≡ 0 [MOD q] :=
  Nat.mul_mod_right q _

theorem eq_crtBasis_fst_iff {p q : Nat} (hp : 0 < p) (hq : 0 < q) (hcop : Nat.gcd p q = 1) (a : Nat) :
    a = (crtBasis p q).1 ↔ a < p * q ∧ a ≡ 1 [MOD p] ∧ a ≡ 0 [MOD q] := by
  constructor
  · rintro rfl
    exact ⟨crtBasis_fst_lt hp hq, crtBasis_fst_modEq_one hp hcop, crtBasis_fst_modEq_zero p q⟩
  · rintro ⟨hlt, hone, hzero⟩
    exact eq_of_modEq_of_lt_mul hcop hlt (crtBasis_fst_lt hp hq) (hone.trans (crtBasis_fst_modEq_one hp hcop).symm)
      (hzero.trans (crtBasis_fst_modEq_zero p q).symm)

theorem crtBasis_fst_one (q : Nat) : (crtBasis 1 q).1 = 0 := by
  have hinv : inv (q % 1) 1 = 0 := Nat.lt_one_iff.1 (inv_lt _ Nat.one_pos)
  rw [crtBasis, hinv, Nat.mul_zero]

/-- Settles O49: each basis value is below n with its two residues, and the second is the first with p and q
swapped. -/
theorem crtBasisIsUnique : Obligations.CrtBasisIsUnique := by
  intro p q hp hq hcop
  refine ⟨rfl, fun a1 => ?_, fun a2 => ?_, ?_, ?_⟩
  · exact eq_crtBasis_fst_iff hp hq hcop a1
  · rw [crtBasis_snd, eq_crtBasis_fst_iff hq hp (Nat.gcd_comm p q ▸ hcop), Nat.mul_comm q]
    exact and_congr_right' and_comm
  · rintro rfl
    exact crtBasis_fst_one q
  · rintro rfl
    exact crtBasis_fst_one p

/-! ## The reconstruction (R250, R252) -/

theorem crtCombine_swap (xp xq p q : Nat) : crtCombine xp xq p q = crtCombine xq xp q p := by
  rw [crtCombine, crtCombine, Nat.add_comm, Nat.mul_comm p, crtBasis_snd, crtBasis_snd]

theorem crtCombine_lt (xp xq : Nat) {p q : Nat} (hp : 0 < p) (hq : 0 < q) : crtCombine xp xq p q < p * q :=
  Nat.mod_lt _ (Nat.mul_pos hp hq)

theorem crtCombine_modEq_left (xp xq : Nat) {p q : Nat} (hp : 0 < p) (hcop : Nat.gcd p q = 1) :
    crtCombine xp xq p q ≡ xp [MOD p] := by
  calc crtCombine xp xq p q
    _ ≡ xp * (crtBasis p q).1 + xq * (crtBasis p q).2 [MOD p] := (Nat.mod_modEq _ _).of_mul_right q
    _ ≡ xp * 1 + xq * 0 [MOD p] :=
      ((crtBasis_fst_modEq_one hp hcop).mul_left xp).add ((crtBasis_fst_modEq_zero q p).mul_left xq)
    _ = xp := by rw [Nat.mul_one, Nat.mul_zero, Nat.add_zero]

theorem crtCombine_modEq_right (xp xq : Nat) {p q : Nat} (hq : 0 < q) (hcop : Nat.gcd p q = 1) :
    crtCombine xp xq p q ≡ xq [MOD q] := by
  rw [crtCombine_swap]
  exact crtCombine_modEq_left xq xp hq (Nat.gcd_comm p q ▸ hcop)

/-- The reconstruction is the only value below p·q with its two residues (R252). -/
theorem eq_crtCombine {xp xq p q r : Nat} (hp : 0 < p) (hq : 0 < q) (hcop : Nat.gcd p q = 1) (hr : r < p * q)
    (hrp : r ≡ xp [MOD p]) (hrq : r ≡ xq [MOD q]) : r = crtCombine xp xq p q :=
  eq_of_modEq_of_lt_mul hcop hr (crtCombine_lt xp xq hp hq) (hrp.trans (crtCombine_modEq_left xp xq hp hcop).symm)
    (hrq.trans (crtCombine_modEq_right xp xq hq hcop).symm)

/-! ## CRT (R250) -/

section CrtValue

variable {opw p q : Nat} (xp xq : Nat)

theorem crtValue_of_zero (h : p = 0 ∨ q = 0) : crtValue opw xp xq p q = .error .invalidArgument :=
  if_pos h

theorem crtValue_of_not_coprime (hp : 0 < p) (hq : 0 < q) (hcop : Nat.gcd p q ≠ 1) :
    crtValue opw xp xq p q = .error .invalidModulus := by
  rw [crtValue, if_neg (by omega), if_pos hcop]

theorem crtValue_of_overflow (hp : 0 < p) (hq : 0 < q) (hcop : Nat.gcd p q = 1) (hn : 2 ^ opw ≤ p * q) :
    crtValue opw xp xq p q = .error .overflow := by
  rw [crtValue, if_neg (by omega), if_neg (not_not.2 hcop), if_pos hn]

theorem crtValue_of_fits (hp : 0 < p) (hq : 0 < q) (hcop : Nat.gcd p q = 1) (hn : p * q < 2 ^ opw) :
    crtValue opw xp xq p q = .ok (crtCombine xp xq p q) := by
  rw [crtValue, if_neg (by omega), if_neg (not_not.2 hcop), if_neg (Nat.not_le.2 hn)]

end CrtValue

theorem exec_crt {s : State} {f : Flight} (hf : s.flight = some f) (d a b c e : Reg) :
    exec (.crt d a b c e) s =
      .next (complete ((crtValue s.cfg.opw f.snap.x[a] f.snap.x[b] f.snap.x[c] f.snap.x[e]).map (Commit.reg d)) s) := by
  rw [exec, execCrt]
  exact run_of_flight hf

/-- Settles O48: CRT's row reserves Z only; its checks come in the order of `crtValue`, and what it writes has the two
residues by those of the basis. -/
theorem crtReconstructs : Obligations.CrtReconstructs := by
  refine ⟨fun w d a b c e => ?_, fun s p k d a b c e hf => ⟨fun h => ?_, fun hp hq hcop => ?_,
    fun hp hq hcop hn => ?_, fun hp hq hcop hn => ?_⟩⟩
  · rw [decode_eq_ok_iff rfl]
    simp [Instr.mnemonic, opcode, rowCommand, reservedClear, reservedFields, and_assoc]
  · rw [exec_crt hf, crtValue_of_zero _ _ h, complete_map_reg_error]
  · rw [exec_crt hf, crtValue_of_not_coprime _ _ hp hq hcop, complete_map_reg_error]
  · rw [exec_crt hf, crtValue_of_overflow _ _ hp hq hcop hn, complete_map_reg_error]
  · refine ⟨_, crtCombine_lt _ _ hp hq, crtCombine_modEq_left _ _ hp hcop, crtCombine_modEq_right _ _ hq hcop,
      fun r' hr' => eq_crtCombine hp hq hcop hr', rfl, ?_⟩
    rw [exec_crt hf, crtValue_of_fits _ _ hp hq hcop hn, complete_map_reg_ok, wroteReg]

/-! ## The moduli checks of SQRT4 and TRANSFORM (R254, R280) -/

/-- The congruences and the coprimality that SQRT4 and TRANSFORM ask of p and q before the width of p·q (R254, R280). -/
structure RootModuli (p q : Nat) : Prop where
  left : p % 4 = 3
  right : q % 4 = 3
  ne : p ≠ q
  coprime : Nat.gcd p q = 1

theorem not_rootModuli_iff (p q : Nat) :
    ¬ RootModuli p q ↔ p % 4 ≠ 3 ∨ q % 4 ≠ 3 ∨ p = q ∨ Nat.gcd p q ≠ 1 := by
  constructor
  · intro h
    by_contra hall
    simp only [not_or, not_not] at hall
    obtain ⟨hp, hq, hne, hcop⟩ := hall
    exact h ⟨hp, hq, hne, hcop⟩
  · rintro (hp | hq | heq | hcop) h
    · exact hp h.left
    · exact hq h.right
    · exact h.ne heq
    · exact hcop h.coprime

theorem RootModuli.left_pos {p q : Nat} (h : RootModuli p q) : 0 < p := by
  have := h.left
  omega

theorem RootModuli.right_pos {p q : Nat} (h : RootModuli p q) : 0 < q := by
  have := h.right
  omega

/-- Distinct primes are coprime. -/
theorem rootModuli_of_primes {p q : Nat} (hp : p.Prime) (hq : q.Prime) (hne : p ≠ q) (hp3 : p % 4 = 3)
    (hq3 : q % 4 = 3) : RootModuli p q :=
  ⟨hp3, hq3, hne, (Nat.coprime_primes hp hq).2 hne⟩

theorem checkModuli_of_not_rootModuli (opw : Nat) {p q : Nat} (h : ¬ RootModuli p q) :
    checkModuli opw p q = .error .invalidModulus :=
  if_pos ((not_rootModuli_iff p q).1 h)

theorem checkModuli_of_rootModuli (opw : Nat) {p q : Nat} (h : RootModuli p q) :
    checkModuli opw p q = if p * q ≥ 2 ^ opw then .error .overflow else .ok () :=
  if_neg (mt (not_rootModuli_iff p q).2 (not_not.2 h))

/-! ## The four roots by their residues (R253, R256) -/

theorem powMod_modEq (base e m : Nat) : powMod base e m ≡ base ^ e [MOD m] :=
  powMod_eq base e m ▸ Nat.mod_modEq _ m

section Roots

variable {p q : Nat} (c : Nat) (h : RootModuli p q)
include h

theorem roots_r1_modEq_left : (roots c p q).r1 ≡ c ^ ((p + 1) / 4) [MOD p] :=
  (crtCombine_modEq_left _ _ h.left_pos h.coprime).trans (powMod_modEq c _ p)

theorem roots_r1_modEq_right : (roots c p q).r1 ≡ c ^ ((q + 1) / 4) [MOD q] :=
  (crtCombine_modEq_right _ _ h.right_pos h.coprime).trans (powMod_modEq c _ q)

theorem roots_r3_modEq_left : (roots c p q).r3 ≡ p - c ^ ((p + 1) / 4) % p [MOD p] := by
  calc (roots c p q).r3
    _ ≡ p - powMod c ((p + 1) / 4) p % p [MOD p] := crtCombine_modEq_left _ _ h.left_pos h.coprime
    _ = p - c ^ ((p + 1) / 4) % p := by rw [powMod_eq, Nat.mod_mod]

theorem roots_r3_modEq_right : (roots c p q).r3 ≡ c ^ ((q + 1) / 4) [MOD q] :=
  (crtCombine_modEq_right _ _ h.right_pos h.coprime).trans (powMod_modEq c _ q)

/-- r3 is −mp modulo p (R256). -/
theorem roots_r3_add_modEq_zero : (roots c p q).r3 + c ^ ((p + 1) / 4) ≡ 0 [MOD p] := by
  have hlt : c ^ ((p + 1) / 4) % p < p := Nat.mod_lt _ h.left_pos
  calc (roots c p q).r3 + c ^ ((p + 1) / 4)
    _ ≡ p - c ^ ((p + 1) / 4) % p + c ^ ((p + 1) / 4) % p [MOD p] :=
      (roots_r3_modEq_left c h).add (Nat.mod_modEq _ p).symm
    _ = p := Nat.sub_add_cancel hlt.le
    _ ≡ 0 [MOD p] := by simp [Nat.ModEq]

end Roots

/-- What SQRT4 accepts, and its value (R254). -/
theorem sqrt4Value_ok {opw c p q : Nat} {r : RootTuple} (h : sqrt4Value opw c p q = .ok r) :
    RootModuli p q ∧ r = roots c p q := by
  rw [sqrt4Value] at h
  by_cases hmod : RootModuli p q
  · rw [checkModuli_of_rootModuli opw hmod] at h
    split at h <;> cases h
    exact ⟨hmod, rfl⟩
  · rw [checkModuli_of_not_rootModuli opw hmod] at h
    cases h

/-- Settles O51: an accepted input's roots are `roots`, reconstructed from the residues named. -/
theorem rootSetProperties : Obligations.RootSetProperties := by
  intro opw c p q r hr
  obtain ⟨h, rfl⟩ := sqrt4Value_ok hr
  exact ⟨roots_lt c (Nat.mul_pos h.left_pos h.right_pos), ⟨rfl, rfl⟩, roots_r1_modEq_left c h,
    roots_r3_add_modEq_zero c h, roots_r1_modEq_right c h, roots_r3_modEq_right c h⟩

/-! ## SQRT4 (R254) -/

theorem exec_sqrt4_of_gt {s : State} {f : Flight} (hf : s.flight = some f) {d : Reg} (a c e : Reg) (hd : 12 < d.val) :
    exec (.sqrt4 d a c e) s = .next (failedWith .illegalCommand s) := by
  rw [exec, execSqrt4]
  exact run_of_error hf (if_pos hd)

theorem exec_sqrt4_of_le {s : State} {f : Flight} (hf : s.flight = some f) {d : Reg} (a c e : Reg) (hd : d.val ≤ 12) :
    exec (.sqrt4 d a c e) s =
      .next (complete ((sqrt4Value s.cfg.opw f.snap.x[a] f.snap.x[c] f.snap.x[e]).map (rootsCommit d)) s) := by
  rw [exec, execSqrt4, run_of_flight hf, if_neg (Nat.not_lt.2 hd)]
  rfl

theorem sqrt4Value_of_not_rootModuli (opw c : Nat) {p q : Nat} (h : ¬ RootModuli p q) :
    sqrt4Value opw c p q = .error .invalidModulus := by
  rw [sqrt4Value, checkModuli_of_not_rootModuli opw h]
  rfl

theorem sqrt4Value_of_overflow {opw : Nat} (c : Nat) {p q : Nat} (h : RootModuli p q) (hn : 2 ^ opw ≤ p * q) :
    sqrt4Value opw c p q = .error .overflow := by
  rw [sqrt4Value, checkModuli_of_rootModuli opw h, if_pos hn]
  rfl

theorem sqrt4Value_of_fits {opw : Nat} (c : Nat) {p q : Nat} (h : RootModuli p q) (hn : p * q < 2 ^ opw) :
    sqrt4Value opw c p q = .ok (roots c p q) := by
  rw [sqrt4Value, checkModuli_of_rootModuli opw h, if_neg (Nat.not_le.2 hn)]
  rfl

/-- D ≤ 12 keeps the four destinations from wrapping (R254, D20). -/
theorem rootReg_val {d : Reg} {j : Nat} (hd : d.val ≤ 12) (hj : j < 4) : (rootReg d j).val = d.val + j :=
  Nat.mod_eq_of_lt (by omega)

/-- The words of any command, a side condition of its row among them (R104–R106, R110). -/
theorem decode_eq_ok_iff_and_wf (w : Word) (i : Instr) :
    decode w = .ok i ↔ opField w = opcode i.mnemonic ∧ rowCommand i.mnemonic w = i ∧
      reservedClear i.mnemonic w = true ∧ i.wf = true := by
  by_cases hwf : i.wf = true
  · rw [decode_eq_ok_iff hwf, and_iff_left hwf]
  · refine ⟨fun h => ?_, fun ⟨_, _, _, h⟩ => absurd h hwf⟩
    obtain ⟨m, -, -, hrow, rfl⟩ := (decode_ok_iff w i).1 h
    exact absurd hrow hwf

/-- Settles O50: SQRT4's row reserves B and Z and is the one with a side condition; its checks come in the order of
`sqrt4Value`, and what it writes is `roots`. -/
theorem sqrt4ComputesTheRoots : Obligations.Sqrt4ComputesTheRoots := by
  refine ⟨fun w d a c e => ?_, ?_⟩
  · rw [decode_eq_ok_iff_and_wf]
    simp [Instr.mnemonic, opcode, rowCommand, reservedClear, reservedFields, Instr.wf, and_assoc]
  · rintro s f k d a c e p q n hf rfl rfl rfl
    refine ⟨exec_sqrt4_of_gt hf a c e, fun hd h => ?_, fun hd hp hq hne hcop hn => ?_,
      fun hd hp hq hne hcop hn => ?_⟩
    · rw [exec_sqrt4_of_le hf a c e hd, sqrt4Value_of_not_rootModuli _ _ ((not_rootModuli_iff _ _).2 h)]
      rfl
    · rw [exec_sqrt4_of_le hf a c e hd, sqrt4Value_of_overflow _ ⟨hp, hq, hne, hcop⟩ hn]
      rfl
    · have h : RootModuli f.x[c] f.x[e] := ⟨hp, hq, hne, hcop⟩
      obtain ⟨hr1, -, hr3, -⟩ := roots_lt f.x[a] (Nat.mul_pos h.left_pos h.right_pos)
      refine ⟨_, _, hr1, hr3, roots_r1_modEq_left _ h, roots_r1_modEq_right _ h, roots_r3_modEq_left _ h,
        roots_r3_modEq_right _ h, fun j => rootReg_val hd, ?_⟩
      rw [exec_sqrt4_of_le hf a c e hd, sqrt4Value_of_fits _ h hn]
      rfl

/-! ## Squares modulo primes, and the square-root property (R255, R257) -/

theorem isSquareMod_of_mul {y m n : Nat} (h : isSquareMod y (m * n)) : isSquareMod y m ∧ isSquareMod y n := by
  obtain ⟨r, hr⟩ := h
  exact ⟨⟨r, Nat.ModEq.of_mul_right n hr⟩, ⟨r, Nat.ModEq.of_mul_left m hr⟩⟩

/-- A square modulo each of two coprime numbers is one modulo their product: reconstruct its root (R257). -/
theorem isSquareMod_and_iff_mul {m n : Nat} (y : Nat) (hcop : Nat.Coprime m n) :
    isSquareMod y m ∧ isSquareMod y n ↔ isSquareMod y (m * n) := by
  refine ⟨?_, isSquareMod_of_mul⟩
  rintro ⟨⟨rm, hrm⟩, ⟨rn, hrn⟩⟩
  obtain ⟨r, hm, hn⟩ := Nat.chineseRemainder hcop rm rn
  exact ⟨r, (Nat.modEq_and_modEq_iff_modEq_mul hcop).1 ⟨(hm.mul hm).trans hrm, (hn.mul hn).trans hrn⟩⟩

/-- For a prime p ≡ 3 (mod 4) the power of R253 is a root of a square: with c = r², its square is r^(p+1) = r²
(R255). -/
theorem sq_pow_modEq_of_isSquareMod {p c : Nat} (hp : p.Prime) (hp3 : p % 4 = 3) (hc : isSquareMod c p) :
    (c ^ ((p + 1) / 4)) ^ 2 ≡ c [MOD p] := by
  have := Fact.mk hp
  obtain ⟨r, hr⟩ := hc
  have hsq : (c : ZMod p) = r * r := by
    rw [← Nat.cast_mul]
    exact ((ZMod.natCast_eq_natCast_iff' _ _ p).2 hr).symm
  have hexp : (p + 1) / 4 * 2 * 2 = p + 1 := by omega
  have hroot : ((c : ZMod p) ^ ((p + 1) / 4)) ^ 2 = c := by
    rw [hsq, ← sq, ← pow_mul, ← pow_mul, Nat.mul_comm, hexp, pow_succ, ZMod.pow_card, sq]
  exact (ZMod.natCast_eq_natCast_iff _ _ p).1 (by push_cast; exact hroot)

/-- R257 for `roots`: modulo each prime a root is the power of R255 or its negation. -/
theorem roots_sq_modEq {p q c : Nat} (hp : p.Prime) (hq : q.Prime) (h : RootModuli p q) (hcp : isSquareMod c p)
    (hcq : isSquareMod c q) :
    ∀ y ∈ [(roots c p q).r1, (roots c p q).r2, (roots c p q).r3, (roots c p q).r4], y ^ 2 ≡ c [MOD p * q] := by
  have hmp := sq_pow_modEq_of_isSquareMod hp h.left hcp
  have hmq := sq_pow_modEq_of_isSquareMod hq h.right hcq
  obtain ⟨hr1, -, hr3, -⟩ := roots_lt c (Nat.mul_pos h.left_pos h.right_pos)
  have h1 : (roots c p q).r1 ^ 2 ≡ c [MOD p * q] := (Nat.modEq_and_modEq_iff_modEq_mul h.coprime).1
    ⟨((roots_r1_modEq_left c h).pow 2).trans hmp, ((roots_r1_modEq_right c h).pow 2).trans hmq⟩
  have h3 : (roots c p q).r3 ^ 2 ≡ c [MOD p * q] := (Nat.modEq_and_modEq_iff_modEq_mul h.coprime).1
    ⟨(sq_modEq_sq_of_add_modEq_zero (roots_r3_add_modEq_zero c h)).trans hmp,
      ((roots_r3_modEq_right c h).pow 2).trans hmq⟩
  have h2 : (roots c p q).r2 ^ 2 ≡ c [MOD p * q] :=
    (sq_modEq_sq_of_add_modEq_zero (neg_mod_add_modEq_zero hr1.le)).trans h1
  have h4 : (roots c p q).r4 ^ 2 ≡ c [MOD p * q] :=
    (sq_modEq_sq_of_add_modEq_zero (neg_mod_add_modEq_zero hr3.le)).trans h3
  simp only [List.forall_mem_cons]
  exact ⟨h1, h2, h3, h4, List.forall_mem_nil _⟩

/-- Where D ≤ 12 the four destinations are distinct and hold the four roots in order (R254). -/
theorem writeRegs_rootsCommit {d : Reg} {j : Nat} (x : Vector Nat 16) (r : RootTuple) (hd : d.val ≤ 12) (hj : j < 4) :
    (writeRegs x (rootsCommit d r).regs)[rootReg d j] = [r.r1, r.r2, r.r3, r.r4][j] := by
  interval_cases j <;> simp [rootsCommit, writeRegs, rootReg_val hd]

/-- Settles O52: the equivalence is reconstruction modulo coprime moduli, and the registers hold `roots`. -/
theorem rootsSquareToC : Obligations.RootsSquareToC := by
  rintro s f k d a c e p q hf rfl rfl hp hq hne hp3 hq3
  have h := rootModuli_of_primes hp hq hne hp3 hq3
  refine ⟨isSquareMod_and_iff_mul _ h.coprime, fun hcp hcq hd hn => ⟨_, exec_sqrt4_of_le hf a c e hd, ?_⟩⟩
  rw [sqrt4Value_of_fits _ h hn]
  refine ⟨rfl, fun j hj => roots_sq_modEq hp hq h hcp hcq _ ?_⟩
  exact (writeRegs_rootsCommit s.x _ hd hj).symm ▸ List.getElem_mem _

/-! ## The degenerate and the non-residue inputs (R258) -/

theorem pow_modEq_zero {c m : Nat} (hm : m % 4 = 3) (hc : c ≡ 0 [MOD m]) : c ^ ((m + 1) / 4) ≡ 0 [MOD m] := by
  have hpos : (m + 1) / 4 ≠ 0 := by omega
  calc c ^ ((m + 1) / 4)
    _ ≡ 0 ^ ((m + 1) / 4) [MOD m] := hc.pow _
    _ = 0 := zero_pow hpos

section Degenerate

variable {c p q : Nat} (h : RootModuli p q)
include h

/-- R258 (a): both are 0 modulo p. -/
theorem roots_r3_eq_r1 (hc : c ≡ 0 [MOD p]) : (roots c p q).r3 = (roots c p q).r1 := by
  have hmp := pow_modEq_zero h.left hc
  obtain ⟨hlt1, -, hlt3, -⟩ := roots_lt c (Nat.mul_pos h.left_pos h.right_pos)
  have hr1 : (roots c p q).r1 ≡ 0 [MOD p] := (roots_r1_modEq_left c h).trans hmp
  have hr3 : (roots c p q).r3 ≡ 0 [MOD p] :=
    (hmp.symm.add_left _).trans (roots_r3_add_modEq_zero c h)
  exact eq_of_modEq_of_lt_mul h.coprime hlt3 hlt1 (hr3.trans hr1.symm)
    ((roots_r3_modEq_right c h).trans (roots_r1_modEq_right c h).symm)

/-- R258 (b): both are 0 modulo q, so r3 is −r1 modulo n. -/
theorem roots_r3_add_r1_modEq_zero (hc : c ≡ 0 [MOD q]) : (roots c p q).r3 + (roots c p q).r1 ≡ 0 [MOD p * q] := by
  have hmq := pow_modEq_zero h.right hc
  have hleft : (roots c p q).r3 + (roots c p q).r1 ≡ 0 [MOD p] :=
    ((roots_r1_modEq_left c h).add_left _).trans (roots_r3_add_modEq_zero c h)
  have hright : (roots c p q).r3 + (roots c p q).r1 ≡ 0 [MOD q] :=
    ((roots_r3_modEq_right c h).trans hmq).add ((roots_r1_modEq_right c h).trans hmq)
  exact (Nat.modEq_and_modEq_iff_modEq_mul h.coprime).1 ⟨hleft, hright⟩

theorem roots_r3_eq_r2 (hc : c ≡ 0 [MOD q]) : (roots c p q).r3 = (roots c p q).r2 := by
  obtain ⟨hlt1, -, hlt3, -⟩ := roots_lt c (Nat.mul_pos h.left_pos h.right_pos)
  exact eq_neg_mod_of_add_modEq_zero hlt3 hlt1 (roots_r3_add_r1_modEq_zero h hc)

theorem roots_r4_eq_r1 (hc : c ≡ 0 [MOD q]) : (roots c p q).r4 = (roots c p q).r1 := by
  obtain ⟨hlt1, -, hlt3, -⟩ := roots_lt c (Nat.mul_pos h.left_pos h.right_pos)
  have hsum := roots_r3_add_r1_modEq_zero h hc
  rw [Nat.add_comm] at hsum
  exact (eq_neg_mod_of_add_modEq_zero hlt1 hlt3 hsum).symm

/-- R258 (a) for the negations. -/
theorem roots_r4_eq_r2 (hc : c ≡ 0 [MOD p]) : (roots c p q).r4 = (roots c p q).r2 :=
  congrArg (fun r => (p * q - r) % (p * q)) (roots_r3_eq_r1 h hc)

/-- R258 (c): r1 is 0 modulo p and modulo q, hence 0, and by (a) and (b) so are the others. -/
theorem roots_eq_zero (hc : c ≡ 0 [MOD p * q]) : roots c p q = ⟨0, 0, 0, 0⟩ := by
  have hp : c ≡ 0 [MOD p] := hc.of_mul_right q
  have hq : c ≡ 0 [MOD q] := hc.of_mul_left p
  have hn : 0 < p * q := Nat.mul_pos h.left_pos h.right_pos
  obtain ⟨hlt1, -⟩ := roots_lt c hn
  have hr1 : (roots c p q).r1 = 0 := eq_of_modEq_of_lt_mul h.coprime hlt1 hn
    ((roots_r1_modEq_left c h).trans (pow_modEq_zero h.left hp))
    ((roots_r1_modEq_right c h).trans (pow_modEq_zero h.right hq))
  have hr3 := (roots_r3_eq_r1 h hp).trans hr1
  have hr2 := (roots_r3_eq_r2 h hq).symm.trans hr3
  have hr4 := (roots_r4_eq_r1 h hq).trans hr1
  calc roots c p q
    _ = ⟨(roots c p q).r1, (roots c p q).r2, (roots c p q).r3, (roots c p q).r4⟩ := rfl
    _ = ⟨0, 0, 0, 0⟩ := by rw [hr1, hr2, hr3, hr4]

end Degenerate

/-- R258 (d): a value that squares to c modulo m·n shows c a square modulo each. -/
theorem sq_mod_ne_of_not_isSquareMod {c m n : Nat} (h : ¬ isSquareMod c m ∨ ¬ isSquareMod c n) (y : Nat) :
    y ^ 2 % (m * n) ≠ c % (m * n) := by
  intro hy
  obtain ⟨hm, hn⟩ := isSquareMod_of_mul ⟨y, sq y ▸ hy⟩
  exact h.elim (fun hnot => hnot hm) (fun hnot => hnot hn)

/-- Settles O53: the degenerate tuples of an accepted input by residues, the rest by the squares modulo n. -/
theorem degenerateAndNonResidueRoots : Obligations.DegenerateAndNonResidueRoots := by
  refine ⟨fun opw c p q r hr => ?_, by decide +kernel, by decide⟩
  obtain ⟨h, rfl⟩ := sqrt4Value_ok hr
  exact ⟨fun hc => ⟨pow_modEq_zero h.left hc, roots_r3_eq_r1 h hc, roots_r4_eq_r2 h hc⟩,
    fun hc => ⟨pow_modEq_zero h.right hc, roots_r3_eq_r2 h hc, roots_r4_eq_r1 h hc⟩,
    fun hc => roots_eq_zero h hc, fun hnot y _ => sq_mod_ne_of_not_isSquareMod hnot y⟩

end Sys2Proof.Machine

/-! The transform family (45_transform): TRANSFORM by its words and by its effect on a command in flight, the byte width
of its modulus, the lane-wise XOR, the swap of its moduli, and when its square is nonzero. -/

namespace Sys2Proof.Machine

open Sys2Proof

/-! ## The byte width (R10, R281) -/

theorem lt_bitlen_iff (k n : Nat) : k < bitlen n ↔ 2 ^ k ≤ n := by
  rw [bitlen]
  split
  · simp [*]
  · rw [Nat.lt_succ_iff, Nat.le_log2 ‹_›]

theorem lt_byteWidth_iff (k n : Nat) : k < byteWidth n ↔ 2 ^ (8 * k) ≤ n := by
  rw [← lt_bitlen_iff, byteWidth, ceilDiv]
  omega

theorem lt_two_pow_byteWidth (n : Nat) : n < 2 ^ (8 * byteWidth n) :=
  Nat.not_le.1 fun h => (Nat.lt_irrefl _) ((lt_byteWidth_iff _ n).2 h)

/-- No smaller width holds n (R281). -/
theorem two_pow_pred_byteWidth_le {n : Nat} (hn : 0 < n) : 2 ^ (8 * (byteWidth n - 1)) ≤ n := by
  have hpos : 0 < byteWidth n := (lt_byteWidth_iff 0 n).2 hn
  exact (lt_byteWidth_iff _ n).1 (by omega)

theorem byteWidth_le {n b w : Nat} (hn : n < 2 ^ b) (hb : b ≤ 8 * w) : byteWidth n ≤ w := by
  have hfits : n < 2 ^ (8 * w) := hn.trans_le (Nat.pow_le_pow_right (by decide) hb)
  exact Nat.not_lt.1 (mt (lt_byteWidth_iff w n).1 (Nat.not_le.2 hfits))

/-! ## TRANSFORM's value (R280, R304) -/

section TransformValue

variable {opw m p q : Nat}

theorem transformValue_of_outOfRange (h : m = 0 ∨ p * q ≤ m) : transformValue opw m p q = .error .invalidArgument :=
  if_pos h

theorem transformValue_of_inRange (hpos : 0 < m) (hlt : m < p * q) :
    transformValue opw m p q =
      (checkModuli opw p q).map fun _ => (xorRoots (roots (m * m % (p * q)) p q), byteWidth (p * q)) :=
  if_neg (by omega)

theorem transformValue_of_not_rootModuli (hpos : 0 < m) (hlt : m < p * q) (h : ¬ RootModuli p q) :
    transformValue opw m p q = .error .invalidModulus := by
  rw [transformValue_of_inRange hpos hlt, checkModuli_of_not_rootModuli opw h]
  rfl

theorem transformValue_of_overflow (hpos : 0 < m) (hlt : m < p * q) (h : RootModuli p q) (hn : 2 ^ opw ≤ p * q) :
    transformValue opw m p q = .error .overflow := by
  rw [transformValue_of_inRange hpos hlt, checkModuli_of_rootModuli opw h, if_pos hn]
  rfl

theorem transformValue_of_fits (hpos : 0 < m) (hlt : m < p * q) (h : RootModuli p q) (hn : p * q < 2 ^ opw) :
    transformValue opw m p q = .ok (xorRoots (roots (m * m % (p * q)) p q), byteWidth (p * q)) := by
  rw [transformValue_of_inRange hpos hlt, checkModuli_of_rootModuli opw h, if_neg (Nat.not_le.2 hn)]
  rfl

/-- What TRANSFORM accepts, and its value and width (R280). -/
theorem transformValue_ok {r : Nat × Nat} (h : transformValue opw m p q = .ok r) :
    0 < m ∧ m < p * q ∧ RootModuli p q ∧ p * q < 2 ^ opw ∧
      r = (xorRoots (roots (m * m % (p * q)) p q), byteWidth (p * q)) := by
  by_cases hrange : m = 0 ∨ p * q ≤ m
  · rw [transformValue_of_outOfRange hrange] at h
    cases h
  obtain ⟨hpos, hlt⟩ : 0 < m ∧ m < p * q := by omega
  by_cases hmod : RootModuli p q
  · by_cases hn : p * q < 2 ^ opw
    · rw [transformValue_of_fits hpos hlt hmod hn] at h
      cases h
      exact ⟨hpos, hlt, hmod, hn, rfl⟩
    · rw [transformValue_of_overflow hpos hlt hmod (Nat.not_lt.1 hn)] at h
      cases h
  · rw [transformValue_of_not_rootModuli hpos hlt hmod] at h
    cases h

end TransformValue

/-- The roots, hence their XOR, fit the width of n (R281). -/
theorem xorRoots_lt (c : Nat) {p q : Nat} (h : 0 < p * q) :
    xorRoots (roots c p q) < 2 ^ (8 * byteWidth (p * q)) := by
  have hn := lt_two_pow_byteWidth (p * q)
  obtain ⟨h1, h2, h3, h4⟩ := roots_lt c h
  exact Nat.xor_lt_two_pow (Nat.xor_lt_two_pow (Nat.xor_lt_two_pow (h1.trans hn) (h2.trans hn)) (h3.trans hn))
    (h4.trans hn)

/-! ## TRANSFORM (R280, R281) -/

theorem exec_transform {s : State} {f : Flight} (hf : s.flight = some f) (d a c e : Reg) :
    exec (.transform d a c e) s =
      .next (complete ((transformValue s.cfg.opw f.snap.x[a] f.snap.x[c] f.snap.x[e]).map (transformCommit d)) s) := by
  rw [exec, execTransform]
  exact run_of_flight hf

theorem exec_transform_of_error {s : State} {f : Flight} {err : CmdError} (hf : s.flight = some f) (d : Reg)
    {a c e : Reg} (h : transformValue s.cfg.opw f.snap.x[a] f.snap.x[c] f.snap.x[e] = .error err) :
    exec (.transform d a c e) s = .next (failedWith err s) := by
  rw [exec_transform hf, h]
  rfl

/-- A TRANSFORM that completes without an error was accepted, and commits its value and width. -/
theorem exec_transform_succeeds {s t : State} {f : Flight} {d a c e : Reg} (hf : s.flight = some f)
    (h : exec (.transform d a c e) s = .next t) (herr : t.err = false) :
    ∃ r, transformValue s.cfg.opw f.snap.x[a] f.snap.x[c] f.snap.x[e] = .ok r ∧
      t = succeed (transformCommit d r) s := by
  rw [exec_transform hf] at h
  cases hv : transformValue s.cfg.opw f.snap.x[a] f.snap.x[c] f.snap.x[e] with
  | error err =>
    rw [hv] at h
    cases h
    cases herr
  | ok r =>
    rw [hv] at h
    cases h
    exact ⟨r, rfl, rfl⟩

@[simp] theorem writeRegs_transformCommit (x : Vector Nat 16) (d : Reg) (r : Nat × Nat) :
    writeRegs x (transformCommit d r).regs = x.set d r.1 := rfl

@[simp] theorem transformCommit_res (d : Reg) (r : Nat × Nat) :
    (transformCommit d r).res = some (BitVec.ofNat 32 r.2) := rfl

/-- Settles O54: TRANSFORM's row reserves B and Z; its checks come in the order of `transformValue`, and what it
combines is `roots`. -/
theorem transformCombinesTheRoots : Obligations.TransformCombinesTheRoots := by
  refine ⟨fun w d a c e => ?_, ?_⟩
  · rw [decode_eq_ok_iff rfl]
    simp [Instr.mnemonic, opcode, rowCommand, reservedClear, reservedFields, and_assoc]
  · rintro s f k d a c e m p q n hf rfl rfl rfl rfl
    refine ⟨fun h => exec_transform_of_error hf d (transformValue_of_outOfRange h), fun hpos hlt h => ?_,
      fun hpos hlt hp hq hne hcop hn => ?_, fun hpos hlt hp hq hne hcop hn => ?_⟩
    · exact exec_transform_of_error hf d
        (transformValue_of_not_rootModuli hpos hlt ((not_rootModuli_iff _ _).2 h))
    · exact exec_transform_of_error hf d (transformValue_of_overflow hpos hlt ⟨hp, hq, hne, hcop⟩ hn)
    · have h : RootModuli f.x[c] f.x[e] := ⟨hp, hq, hne, hcop⟩
      have hnpos : 0 < f.x[c] * f.x[e] := Nat.mul_pos h.left_pos h.right_pos
      obtain ⟨hr1, -, hr3, -⟩ := roots_lt (f.x[a] * f.x[a] % (f.x[c] * f.x[e])) hnpos
      refine ⟨_, _, _, hr1, hr3, roots_r1_modEq_left _ h, roots_r1_modEq_right _ h, roots_r3_modEq_left _ h,
        roots_r3_modEq_right _ h, lt_two_pow_byteWidth _, two_pow_pred_byteWidth_le hnpos, ?_⟩
      rw [exec_transform hf, transformValue_of_fits hpos hlt h hn]
      rfl

/-! ## The width of the result (R281, R286) -/

/-- At a legal OPW the width of n fits RES and FITW's immediate. -/
theorem byteWidth_lt_of_wf {cfg : Config} {n : Nat} (hcfg : cfg.wf) (hn : n < 2 ^ cfg.opw) : byteWidth n < 2 ^ 16 := by
  obtain ⟨-, -, hopw, -⟩ := hcfg
  calc byteWidth n
    _ ≤ 1024 := byteWidth_le hn hopw
    _ < 2 ^ 16 := by decide

/-- The value fits its width, and the width its 16-bit immediate (R281, R286). -/
theorem transformValue_fits_width {cfg : Config} {m p q : Nat} {r : Nat × Nat} (hcfg : cfg.wf)
    (h : transformValue cfg.opw m p q = .ok r) : r.1 < 2 ^ (8 * r.2) ∧ r.2 < 2 ^ 16 := by
  obtain ⟨hpos, hlt, -, hn, rfl⟩ := transformValue_ok h
  exact ⟨xorRoots_lt _ (hpos.trans hlt), byteWidth_lt_of_wf hcfg hn⟩

/-- Settles O55: the XOR of the roots fits the width of n, which RES and FITW's immediate hold in full. -/
theorem transformFitsItsWidth : Obligations.TransformFitsItsWidth := by
  refine ⟨fun s t p k d a c e hcfg hf _ h herr => ?_, by decide +kernel, by decide +kernel⟩
  obtain ⟨r, hr, rfl⟩ := exec_transform_succeeds hf h herr
  obtain ⟨hx, hwidth⟩ := transformValue_fits_width hcfg hr
  have hres : (BitVec.ofNat 32 r.2).toNat = r.2 := Nat.mod_eq_of_lt (by omega)
  have himm : (BitVec.ofNat 16 r.2).toNat = r.2 := Nat.mod_eq_of_lt hwidth
  rw [succeed_x, writeRegs_transformCommit, succeed_res, transformCommit_res, Option.getD_some, hres,
    Fin.getElem_fin, Vector.getElem_set_self]
  refine ⟨hx, hwidth, fun s' p' k' b hf' hp' => ?_⟩
  rw [exec_fitw hf', himm, hp', fitwValue_of_fits hx, complete_map_reg_ok]

/-! ## The lane-wise XOR (R282, R283) -/

theorem xorLanes_fwbBytes (a b w : Nat) : xorLanes (fwbBytes a w) (fwbBytes b w) = fwbBytes (a ^^^ b) w := by
  induction w with
  | zero => rfl
  | succ w ih =>
    rw [fwbBytes, fwbBytes, fwbBytes, Nat.xor_div_two_pow, BitVec.ofNat_xor, ← ih]
    rfl

theorem fwd_fwbBytes_of_lt {v w : Nat} (h : v < 2 ^ (8 * w)) : fwd (fwbBytes v w) = v := by
  rw [fwd_fwbBytes, Nat.mod_eq_of_lt h]

/-- Settles O56: the lanes of an XOR are the XORs of the lanes, and both values fit the width. -/
theorem laneXorIsIntegerXor : Obligations.LaneXorIsIntegerXor := by
  refine ⟨fun w a b ha hb => ?_, fun opw m p q v w h => ?_⟩
  · rw [xorLanes_fwbBytes, fwd_fwbBytes_of_lt (Nat.xor_lt_two_pow ha hb)]
  · obtain ⟨hpos, hlt, -, -, hr⟩ := transformValue_ok h
    cases hr
    have hx := xorRoots_lt (m * m % (p * q)) (hpos.trans hlt)
    simp only [xorLanes_fwbBytes]
    exact (fwd_fwbBytes_of_lt hx).symm

/-! ## The swap of the moduli (R284) -/

theorem RootModuli.symm {p q : Nat} (h : RootModuli p q) : RootModuli q p :=
  ⟨h.right, h.left, h.ne.symm, Nat.gcd_comm p q ▸ h.coprime⟩

/-- Swapping p and q makes r3 its negation: modulo either number, one of the two is the power of R253 and the other
its negation. -/
theorem roots_swap_r3 (c : Nat) {p q : Nat} (h : RootModuli p q) : (roots c q p).r3 = (roots c p q).r4 := by
  obtain ⟨-, -, hlt, -⟩ := roots_lt c (Nat.mul_pos h.left_pos h.right_pos)
  obtain ⟨-, -, hlt', -⟩ := roots_lt c (Nat.mul_pos h.right_pos h.left_pos)
  have hp : (roots c q p).r3 + (roots c p q).r3 ≡ 0 [MOD p] := by
    calc (roots c q p).r3 + (roots c p q).r3
      _ ≡ c ^ ((p + 1) / 4) + (roots c p q).r3 [MOD p] := (roots_r3_modEq_right c h.symm).add_right _
      _ = (roots c p q).r3 + c ^ ((p + 1) / 4) := Nat.add_comm _ _
      _ ≡ 0 [MOD p] := roots_r3_add_modEq_zero c h
  have hq : (roots c q p).r3 + (roots c p q).r3 ≡ 0 [MOD q] :=
    ((roots_r3_modEq_right c h).add_left _).trans (roots_r3_add_modEq_zero c h.symm)
  exact eq_neg_mod_of_add_modEq_zero (Nat.mul_comm q p ▸ hlt') hlt
    ((Nat.modEq_and_modEq_iff_modEq_mul h.coprime).1 ⟨hp, hq⟩)

theorem roots_swap_r1 (c p q : Nat) : (roots c q p).r1 = (roots c p q).r1 := crtCombine_swap _ _ q p

theorem roots_swap_r2 (c p q : Nat) : (roots c q p).r2 = (roots c p q).r2 := by
  calc (roots c q p).r2
    _ = (q * p - (roots c q p).r1) % (q * p) := rfl
    _ = (p * q - (roots c p q).r1) % (p * q) := by rw [roots_swap_r1, Nat.mul_comm]

theorem roots_swap (c : Nat) {p q : Nat} (h : RootModuli p q) :
    roots c q p = ⟨(roots c p q).r1, (roots c p q).r2, (roots c p q).r4, (roots c p q).r3⟩ := by
  rw [← roots_swap_r1, ← roots_swap_r2, ← roots_swap_r3 c h, roots_swap_r3 c h.symm]

theorem xorRoots_roots_swap (c : Nat) {p q : Nat} (h : RootModuli p q) :
    xorRoots (roots c q p) = xorRoots (roots c p q) := by
  rw [roots_swap c h]
  exact Nat.xor_right_comm _ _ _

theorem transformValue_swap (opw m p q : Nat) : transformValue opw m q p = transformValue opw m p q := by
  by_cases hrange : m = 0 ∨ p * q ≤ m
  · rw [transformValue_of_outOfRange hrange, transformValue_of_outOfRange (Nat.mul_comm p q ▸ hrange)]
  obtain ⟨hpos, hlt⟩ : 0 < m ∧ m < p * q := by omega
  have hlt' : m < q * p := Nat.mul_comm p q ▸ hlt
  by_cases h : RootModuli p q
  · rw [transformValue_of_inRange hpos hlt, transformValue_of_inRange hpos hlt', checkModuli_of_rootModuli opw h,
      checkModuli_of_rootModuli opw h.symm, Nat.mul_comm q p, xorRoots_roots_swap _ h]
  · rw [transformValue_of_not_rootModuli hpos hlt h, transformValue_of_not_rootModuli hpos hlt' (mt RootModuli.symm h)]

theorem exec_transform_swap (s : State) (d a c e : Reg) :
    exec (.transform d a c e) s = exec (.transform d a e c) s := by
  rw [exec, exec, execTransform, execTransform]
  simp only [transformValue_swap]

/-- What SQRT4 accepts fits the register (R254). -/
theorem lt_of_sqrt4Value_ok {opw c p q : Nat} {r : RootTuple} (hr : sqrt4Value opw c p q = .ok r) :
    p * q < 2 ^ opw := by
  obtain ⟨h, -⟩ := sqrt4Value_ok hr
  by_contra hn
  rw [sqrt4Value_of_overflow c h (Nat.not_lt.1 hn)] at hr
  cases hr

/-- Settles O58: modulo n the swap exchanges r3 and its negation r4, which the XOR does not see; TRANSFORM's frame
keeps the delivered values. -/
theorem transformIsSwapInvariant : Obligations.TransformIsSwapInvariant := by
  refine ⟨exec_transform_swap, fun opw c p q r hr => ?_, fun s t d a c e h => (exec_frame h).rng rfl⟩
  have hn := lt_of_sqrt4Value_ok hr
  obtain ⟨h, rfl⟩ := sqrt4Value_ok hr
  rw [sqrt4Value_of_fits c h.symm (Nat.mul_comm p q ▸ hn), roots_swap c h]

/-! ## The square of m modulo n (R285) -/

/-- Refutes O59: m = 63, p = 27, q = 7 pass every check, and 63² = 21·189 (log entry 10). -/
theorem not_transformSquareIsNonzeroAsWritten : ¬ Obligations.TransformSquareIsNonzeroAsWritten := by
  intro h
  have haccepted : transformValue 2048 63 27 7 = .ok (0, 1) := by decide +kernel
  have hzero : 63 * 63 % (27 * 7) = 0 := by decide
  exact h 2048 63 27 7 (0, 1) haccepted hzero

/-- Settles O60: if m² were 0 modulo n, the primes p and q would divide m, and so would n, which is above m. -/
theorem transformSquareIsNonzeroForPrimes : Obligations.TransformSquareIsNonzeroForPrimes := by
  intro opw m p q r hp hq hr hzero
  obtain ⟨hpos, hlt, hmod, -⟩ := transformValue_ok hr
  have hdvd : p * q ∣ m * m := Nat.dvd_of_mod_eq_zero hzero
  have hpm : p ∣ m := or_self_iff.1 (hp.dvd_mul.1 (dvd_of_mul_right_dvd hdvd))
  have hqm : q ∣ m := or_self_iff.1 (hq.dvd_mul.1 (dvd_of_mul_left_dvd hdvd))
  have hnm : p * q ∣ m := Nat.Coprime.mul_dvd_of_dvd_of_dvd hmod.coprime hpm hqm
  exact Nat.not_le.2 hlt (Nat.le_of_dvd hpos hnm)

end Sys2Proof.Machine

/-! The exception family (60_exceptions): every command has an outcome, and the errors each command may raise. -/

namespace Sys2Proof.Machine

open Sys2Proof

/-! ## Every command has an outcome (R300, R319) -/

/-- Settles O10: every command is a run of its progress, which completes or waits (R52). -/
theorem everyCommandAnswersANextState : Obligations.EveryCommandAnswersANextState :=
  exec_answers_next

/-! ## Which errors a command may raise (R301, R302, R304) -/

/-- What a command does to ERR and ERRCODE: only a completion with one of its listed errors touches them (R46). -/
theorem exec_err_cases {i : Instr} {s t : State} (h : exec i s = .next t) :
    (t.err = s.err ∧ t.errcode = s.errcode) ∨ ∃ e ∈ raises i, t.err = true ∧ t.errcode = some e := by
  obtain ⟨-, rfl⟩ | ⟨f, r, rest, -, rfl, -, -, hr⟩ | ⟨f, w, -, -, rfl⟩ := exec_cases h
  · exact .inl ⟨rfl, rfl⟩
  · obtain ⟨-, herrors⟩ := hr
    cases r with
    | ok c => exact .inl ⟨rfl, rfl⟩
    | error e => exact .inr ⟨e, herrors e rfl, rfl, rfl⟩
  · exact .inl ⟨rfl, rfl⟩

/-- MOV, LDI and MRTEST list no error. -/
theorem raises_eq_nil_of_mnemonic {i : Instr} (h : i.mnemonic ∈ [.mov, .ldi, .mrtest]) : raises i = [] := by
  cases i with
  | mov | ldi | mrtest => rfl
  | _ => simp [Instr.mnemonic] at h

/-- Settles O30: an ERRCODE that was None, or an ERR that was 0, is changed only by an error on the command's list,
and the lists of MOV, LDI and MRTEST are empty. -/
theorem errorsEachCommandMayRaise : Obligations.ErrorsEachCommandMayRaise := by
  refine ⟨fun i s t e hnone h he => ?_, fun i s t hi herr h => ?_⟩
  · obtain ⟨-, hkept⟩ | ⟨e', hmem, -, hset⟩ := exec_err_cases h
    · simp [hkept, hnone] at he
    · obtain rfl : e' = e := Option.some.inj (hset.symm.trans he)
      exact hmem
  · obtain ⟨hkept, -⟩ | ⟨e, hmem, -⟩ := exec_err_cases h
    · exact hkept.trans herr
    · simp [raises_eq_nil_of_mnemonic hi] at hmem

end Sys2Proof.Machine

/-! The reset and hazards family (70_reset_and_hazards): the reset state as the host and the platform see it, the two
resets that reach it, and the completion of a command that draws nothing. -/

namespace Sys2Proof.Machine

open Sys2Proof

/-! ## Completion in one turn (R46, R370) -/

@[simp] theorem complete_busy (r : Except CmdError Commit) (s : State) : (complete r s).busy = false := by
  cases r <;> rfl

@[simp] theorem complete_rng (r : Except CmdError Commit) (s : State) : (complete r s).rng = s.rng := by
  cases r <;> rfl

/-- Settles O32: with a command in flight, one that draws nothing has only the completion left. -/
theorem nonDrawingCommandsComplete : Obligations.NonDrawingCommandsComplete := by
  intro i s hi hb
  obtain ⟨t, h⟩ := exec_answers_next i s
  refine ⟨t, h, ?_⟩
  obtain ⟨hidle, -⟩ | ⟨f, r, -, rfl, -⟩ := exec_nondrawing hi h
  · simp [(not_busy_iff s).2 hidle] at hb
  · exact ⟨complete_busy r s, complete_done r s, complete_rng r s⟩

/-! ## The reset state (R350) -/

/-- LIMBS is at most 256, so PARAM's sum is the spec's bitwise or (R5, R42). -/
theorem paramWord_eq_or {c : Config} (hc : c.wf) :
    paramWord c = BitVec.ofNat 32 ((16 <<< 16) ||| (c.opw / 32)) := by
  have hlimbs : c.opw / 32 < 2 ^ 16 := by omega
  rw [paramWord, Config.limbs, ← Nat.shiftLeft_add_eq_or_of_lt hlimbs, Nat.shiftLeft_eq]

/-- The reset state reads as R350's table, whatever surrounds the engine. -/
theorem State.isReset_resetWith {c : Config} (hc : c.wf) (level : Bool) (ds : List Nat) (ag : List Turn)
    (rs : Option Response) : (State.resetWith c level ds ag rs).isReset where
  regs r := by simp [State.resetWith]
  id := rfl
  param := paramWord_eq_or hc
  ctrl := rfl
  status := rfl
  cmd := rfl
  errcode := rfl
  res := rfl
  rounds := rfl
  retryLimit := rfl
  retryCount := rfl
  flight := rfl
  irq := rfl

theorem engineReset_isReset {s : State} (hc : s.cfg.wf) : (engineReset s).isReset :=
  State.isReset_resetWith hc _ _ _ _

theorem driveRst_true_isReset {s : State} (hc : s.cfg.wf) : (driveRst true s).isReset :=
  State.isReset_resetWith hc _ _ _ _

/-- A CTRL write with SRST = 1 is the reset of the engine (R43, R351). -/
theorem writeOffset_ctrl_of_srst {s : State} {v : Word} (hv : v.getLsbD 1 = true) :
    writeOffset s 0x008 v = engineReset s :=
  writeCtrl_of_srst hv

theorem Config.reference_wf : Config.reference.wf := by decide

/-- Settles O12: `rst` and SRST both lead to the one reset state. -/
theorem resetLeavesTheResetState : Obligations.ResetLeavesTheResetState := by
  refine ⟨fun s hc => driveRst_true_isReset hc, fun s v hc hv => ?_,
    State.isReset_resetWith Config.reference_wf _ _ _ _⟩
  rw [writeOffset_ctrl_of_srst hv]
  exact engineReset_isReset hc

/-- Settles O15: the reset state meets the invariant in every legal configuration. -/
theorem resetSatisfiesTheInvariant : Obligations.ResetSatisfiesTheInvariant :=
  State.Inv.resetWith Config.reference_wf _ _ _ _

/-! ## The soft reset (R351) -/

/-- Settles O13: the answered write is the engine's reset, which touches nothing around the engine. -/
theorem softResetAbandonsTheCommand : Obligations.SoftResetAbandonsTheCommand := by
  intro s v hc hr hv
  have hwrite := takeTurn_wrTurn v hc hr (show 0x008 < 0x8000 by decide) (by decide)
  rw [writeOffset_ctrl_of_srst hv] at hwrite
  exact ⟨_, hwrite, State.isReset_resetWith hc _ _ _ _, rfl, rfl, rfl, hr, rfl⟩

/-! ## The `rst` input (R352) -/

theorem engineTurn_of_rst {s : State} (hr : s.rst = true) : engineTurn s = .next s := if_pos hr

/-- A state held in reset is, once released, the reset state with `rst` low (R352). -/
theorem driveRst_false_of_held {s : State} (hs : s.Inv) (hr : s.rst = true) :
    driveRst false s = State.resetWith s.cfg false s.rng s.agenda s.resp :=
  congrArg (driveRst false) (hs.held hr)

/-- Settles O14: asserting `rst` resets, holding it stops the engine and the host, and releasing it leaves the reset
state, which is idle. -/
theorem rstInputHoldsTheEngine : Obligations.RstInputHoldsTheEngine := by
  refine ⟨fun s hc => ⟨driveRst_true_isReset hc, rfl⟩,
    fun s hr => ⟨engineTurn_of_rst hr, fun a => hostAccess_of_rst a hr⟩, fun s hs hr => ?_⟩
  have hrelease : takeTurn (.rst false) s = .next (State.resetWith s.cfg false s.rng s.agenda s.resp) :=
    congrArg Host.Outcome.next (driveRst_false_of_held hs hr)
  exact ⟨_, hrelease, State.isReset_resetWith hs.config _ _ _ _, rfl, engineTurn_of_idle rfl⟩

end Sys2Proof.Machine
